-- ==== Sys2Proof/Word.lean ====
section
/-! DEFINITION. The two machine words of the engine: the byte (`00_scope.md` R10) and the 32-bit register
(`10_state.md` R24, R25). Every quantity that is not held in a register or in a byte is a natural number
(`40_bit_packer.md` R121: exact arithmetic, nothing wraps). -/

namespace Sys2Proof

/-- A byte: eight bits, bit 0 the least significant (R10). -/
abbrev Byte := BitVec 8

/-- The contents of a 32-bit unsigned register (R24, R25, R34). -/
abbrev Word := BitVec 32

end Sys2Proof
end

