-- ==== Sys2Proof/Syntax.lean ====
section
/-! DEFINITION. The eight commands of `spec/opcode_table.json` (`30_encoding.md` R100), one constructor per row.
A command has no operand field: "there is no other field, no immediate and no register number. Operands are implicit". -/

namespace Sys2Proof

/-- A command of the set `BMPENC-OPS/1` (R100). -/
inductive Instr where
  /-- `0x01`: validate the matrix, latch the dimensions, build `PIX` (R126). -/
  | pack
  /-- `0x02`: build the 62 header bytes in `HDR` (R140). -/
  | bldhdr
  /-- `0x03`: concatenate `HDR` and `PIX` into `FILE` (R170). -/
  | asm
  /-- `0x04`: PACK, then BLDHDR, then ASM (R172). -/
  | encode
  /-- `0x05`: return `FILE` as response data (R175). -/
  | getbytes
  /-- `0x06`: open the named file, write `FILE`, close (R178). -/
  | wrfile
  /-- `0x07`: write `FILE` to the already-open sink `STREAM` (R180). -/
  | wrsink
  /-- `0x08`: drop every held result (R183). -/
  | discard
  deriving DecidableEq, Repr

end Sys2Proof
end

