-- ==== Sys2Proof/Config.lean ====
section
/-! DEFINITION. What an implementation fixes (`00_scope.md` R9) and the free values: the values the spec leaves open
(`93_implementation_defined.md` U1, U6, U15, U16, U18). A free value is an opaque constant, so nothing can be proved about which
value it is. -/

namespace Sys2Proof

/-- The open parameters of R9 that one engine and its sinks take. `NINST`, the number of engines, is the index of
`Machine.System`. They are fixed for the machine: no step changes them. -/
structure Config where
  /-- `CELLW`: width in bits of one matrix cell, at least 1 (R9, R20). -/
  cellw : Nat
  /-- `PIXCAP`: the largest pixel-data length in bytes that the engine can hold (R9, R123). -/
  pixcap : Nat
  /-- `SINK_ATOMIC`: a failed write delivers nothing (R9, R181). -/
  sinkAtomic : Bool
  deriving DecidableEq, Repr

/-- The defaults of R9: `PIXCAP = 2^32 − 63`, `SINK_ATOMIC = false`. `CELLW` has no default in the spec: 8 is this model's
(DESIGN CHOICE, log 3). -/
def Config.specDefault : Config := { cellw := 8, pixcap := 2 ^ 32 - 63, sinkAtomic := false }

/-- The "underlying cause" of an I/O failure: opaque, supplied by the sink, never inspected (R32, R192). The number only tells
causes apart. -/
structure Cause where
  tag : Nat
  deriving DecidableEq, Repr, Inhabited

/-- What the sink chooses when it is called once (R32: "Each answer is chosen by the sink, not by the engine; a model takes the
answers as free inputs"). `accept` says whether the call is answered `Ok`; `taken` is the length of the part of a failed write
that the sink took; `cause` is what it reports if the call fails. -/
structure SinkChoice where
  accept : Bool
  taken : Nat
  cause : Cause
  deriving DecidableEq, Repr, Inhabited

namespace Config

/-- Free value: what a sink chooses at a call for which the host supplied no choice (R32, U15). Applied to the counter of
free values in State (log 5). -/
opaque freeChoice : Nat → SinkChoice

/-- Free value: what a 32-bit register holds once its contents are unspecified (R26, R126, R183, U18), given the counter of free
values and what it held before (log 4). -/
opaque openWord : Nat → Word → Word

/-- Free value: contents and length of `PIX` or `FILE` once they are unspecified (R39, R126, R183, U18) (log 4). -/
opaque openBytes : Nat → List Byte → List Byte

/-- Free value: the 62 bytes of `HDR` once they are unspecified (R39, R183, U18); the length stays 62 (R52) (log 4). -/
opaque openHeader : Nat → List Byte → Vector Byte 62

end Config

end Sys2Proof
end

