-- ==== Sys2Proof/WellFormed.lean ====
section
/-! DEFINITION. The checks on what is written down: commands, command codes, parameters, and the answers a sink may give. -/

namespace Sys2Proof

/-- A command has no field that could be out of range (R100), so every command is well formed. Written out by constructor, so
that a new command cannot slip past. -/
def Instr.wf : Instr → Bool
  | .pack => true
  | .bldhdr => true
  | .asm => true
  | .encode => true
  | .getbytes => true
  | .wrfile => true
  | .wrsink => true
  | .discard => true

/-- A code that selects a command: `0x01` to `0x08` (R100). Code `0x00` and codes `0x09` to `0xFF` select no operation (R101). -/
def legalCode (code : Byte) : Bool := decide (1 ≤ code.toNat) && decide (code.toNat ≤ 8)

/-- The ranges of R9: `CELLW ≥ 1`; `PIXCAP` is any natural number. -/
def Config.wf (cfg : Config) : Bool := decide (1 ≤ cfg.cellw)

/-- A choice that R32 lets a sink make at a write of `len` bytes: a failed write takes at most `len` bytes, and none if
`SINK_ATOMIC`. -/
def SinkChoice.legalFor (ch : SinkChoice) (cfg : Config) (len : Nat) : Bool :=
  ch.accept || (decide (ch.taken ≤ len) && (!cfg.sinkAtomic || decide (ch.taken = 0)))

end Sys2Proof
end

