-- ==== Sys2Proof/Decode.lean ====
section
/-! DEFINITION. Decoding and encoding of commands (`30_encoding.md` R100 to R103): every command is exactly one byte, and every
code is either one of the eight commands or illegal. -/

namespace Sys2Proof

/-- One row of the command table: the code is this row's if, under `mask`, it equals `pattern`. -/
structure OpcodeRow where
  mask : Byte
  pattern : Byte
  instr : Instr
  deriving DecidableEq, Repr

/-- The table of R100. -/
def opcodeTable : List OpcodeRow :=
  [ ⟨0xFF#8, 0x01#8, .pack⟩, ⟨0xFF#8, 0x02#8, .bldhdr⟩, ⟨0xFF#8, 0x03#8, .asm⟩, ⟨0xFF#8, 0x04#8, .encode⟩,
    ⟨0xFF#8, 0x05#8, .getbytes⟩, ⟨0xFF#8, 0x06#8, .wrfile⟩, ⟨0xFF#8, 0x07#8, .wrsink⟩, ⟨0xFF#8, 0x08#8, .discard⟩ ]

/-- Does the code match the row? -/
def OpcodeRow.matches (row : OpcodeRow) (code : Byte) : Bool := code &&& row.mask == row.pattern

/-- The command that an 8-bit code selects, `none` for an illegal code (R100, R101). -/
def decodeCode (code : Byte) : Option Instr := (opcodeTable.find? (·.matches code)).map (·.instr)

/-- Why bytes are not a command. -/
inductive DecodeError where
  /-- There is no byte to read. -/
  | noByte
  /-- The code selects no operation (R101). -/
  | illegalCode (code : Byte)
  deriving DecidableEq, Repr

/-- Decode the first command of a byte sequence; the rest of the sequence is handed back (R103: exactly 8 bits, no prefix). -/
def decode : List Byte → Except DecodeError (Instr × List Byte)
  | [] => .error .noByte
  | code :: rest =>
    match decodeCode code with
    | some i => .ok (i, rest)
    | none => .error (.illegalCode code)

/-- The code of a command (R100). -/
def encodeCode : Instr → Byte
  | .pack => 0x01#8
  | .bldhdr => 0x02#8
  | .asm => 0x03#8
  | .encode => 0x04#8
  | .getbytes => 0x05#8
  | .wrfile => 0x06#8
  | .wrsink => 0x07#8
  | .discard => 0x08#8

/-- The bytes of a command: its one code byte (R103). -/
def encode (i : Instr) : List Byte := [encodeCode i]

/-- The code byte of a table word: its low `nbits` bits, no more than the 8 bits a command has (R103). -/
def tableByte (nbits w : Nat) : Byte := BitVec.ofNat 8 (w % 2 ^ nbits)

/-- The command that the decoder reads from a word of the opcode table. -/
def decodeTableWord (nbits w : Nat) : Option Instr :=
  match decode [tableByte nbits w] with
  | .ok (i, _) => some i
  | .error _ => none

end Sys2Proof
end

