-- ==== Sys2Proof/Machine/State.lean ====
section
/-! DEFINITION. The state: the engine's registers, buffers and flags (`10_state.md` R40), its environment (the matrix source, the
sinks and what the sinks will answer), the command port with what the host does next, the parameters, and the counter of free
values. Plain data throughout. -/

namespace Sys2Proof.Machine

/-- A matrix source (R20, R21): the width it reports and its rows, top row first, each row a run of cells, left cell first. Its
height is the number of its rows (D7, N11), and the length of a row is read from the row, so that a ragged matrix can be
presented. Cells are natural numbers; a read presents their low `CELLW` bits. -/
structure Matrix where
  width : Nat
  rows : List (List Nat)
  deriving DecidableEq, Repr

/-- A file name: opaque, supplied by the host (R32). The number only tells names apart (log 7). -/
structure Path where
  id : Nat
  deriving DecidableEq, Repr

/-- A sink object: `SINK.open` and `SINK.content` (R32). -/
structure Sink where
  isOpen : Bool
  content : List Byte
  deriving DecidableEq, Repr

/-- Which sink object a command addresses (R32, C9): the one of a file name, or `STREAM`. -/
inductive SinkRef where
  | named (p : Path)
  | stream
  deriving DecidableEq, Repr

/-- The value of `ERRINFO` (R34): 32 bits for codes 0, 1, 3 and 4, the sink's opaque cause for code 2. -/
inductive Info where
  | word (w : Word)
  | cause (c : Cause)
  deriving DecidableEq, Repr

/-- What a command gives back to the host (R35). -/
structure Response where
  code : Byte
  info : Info
  data : List Byte
  deriving DecidableEq, Repr

/-- One thing the host does between commands (R16, R185). -/
inductive HostEvent where
  /-- It issues a command code (R35). -/
  | command (code : Byte)
  /-- It presents a matrix (R23, R185). -/
  | presentMatrix (m : Matrix)
  /-- It holds another file name for WRFILE (R100, R223). -/
  | holdPath (p : Path)
  /-- It opens, closes, empties or fills one of the sink objects it owns (R32, R185). -/
  | setSink (ref : SinkRef) (sink : Sink)
  /-- What the sinks will choose at their coming calls (R32, R104: a line `SINK: <answers>`). -/
  | sinkChoices (cs : List SinkChoice)
  /-- The reset event (R220). -/
  | reset
  deriving DecidableEq, Repr

/-- The byte-addressed spaces of the engine (R50, R52). -/
inductive Space where
  | pix
  | hdr
  | file
  deriving DecidableEq, Repr

/-- The complete state of one engine: the tuple of R40. -/
structure Engine where
  width : Word
  height : Word
  bpr : Word
  pdlen : Word
  pix : List Byte
  hdr : List Byte
  file : List Byte
  pixv : Bool
  hdrv : Bool
  filev : Bool
  err : Byte
  errinfo : Info
  deriving DecidableEq, Repr

/-- The environment a transition reads or changes (R40): the matrix source; the file name the host holds; the sink `STREAM`;
the named sinks, by rising name, without those that are closed and empty (the value of a name not listed, log 6); and what the
sinks will choose at their coming calls, first call first. -/
structure Env where
  matrix : Matrix
  path : Path
  stream : Sink
  named : List (Nat × Sink)
  choices : List SinkChoice
  deriving DecidableEq, Repr

/-- The command port (R35): what the host does next, first event first, and every response it was given, oldest first
(DESIGN CHOICE, log 8). -/
structure Port where
  script : List HostEvent
  responses : List Response
  deriving DecidableEq, Repr

/-- The state of the machine. `freeCtr` is the model's own: it counts the free values used (log 4). -/
structure State where
  eng : Engine
  env : Env
  port : Port
  config : Config
  freeCtr : Nat
  deriving DecidableEq, Repr

/-- Why a step stops. The spec has no fault (R208): each of these guards the requirement that a primitive of R13 or R12 states,
and the invariant `State.Inv` rules it out
(DEDUCED, log 9). -/
inductive Fault where
  /-- Raised by `memRead` and `memWrite`, so by SETDOT, BLDHDR, ASM and the three outputs, for an access that leaves its space
  (R13: "requires addr + n ≤ the length of the space"; R62: such an access has no meaning). Safe. -/
  | spaceRange
  /-- Raised by SETDOT for a cell that the matrix source does not define (R20: "Defined when"). Safe. -/
  | sourceRange
  /-- Raised by BLDHDR for a `PDLEN` outside the bounds of `BuildHeaders` (R141), where `LE32(62 + n)` is not defined (R12). Safe. -/
  | headerRange
  deriving DecidableEq, Repr

/-- Why an instruction is refused. -/
inductive Refusal where
  /-- Raised by `exec` for an instruction that has no meaning yet. Safe. No arm of this model answers it. -/
  | notModelled (mnemonic : String)
  deriving DecidableEq, Repr

/-- The machine right after reset (R39). The flags, `ERR`, `ERRINFO` and the idle port are the spec's; the zeros of the
registers and of `HDR`, the empty `PIX` and `FILE`, the environment, `CELLW` and the counter of free values are this model's
(DESIGN CHOICE, log 1 to 4). -/
def State.reset : State where
  eng :=
    { width := 0, height := 0, bpr := 0, pdlen := 0
      pix := [], hdr := List.replicate 62 0, file := []
      pixv := false, hdrv := false, filev := false
      err := 0, errinfo := .word 0 }
  env :=
    { matrix := { width := 0, rows := [] }, path := ⟨0⟩, stream := { isOpen := false, content := [] }
      named := [], choices := [] }
  port := { script := [], responses := [] }
  config := Config.specDefault
  freeCtr := 0

end Sys2Proof.Machine
end

