-- ==== Sys2Proof/Machine/Flags.lean ====
section
/-! DEFINITION. The three valid flags (`10_state.md` R33): a stage clears its own and all later flags at its start and sets its
own at its end. There is no other flag (R33: "No arithmetic flag, condition code or predicate exists"). -/

namespace Sys2Proof.Machine

/-- The start of PACK and ENCODE, and DISCARD: `PIXV`, `HDRV` and `FILEV` are cleared (R126, R183). -/
def State.clearValid (s : State) : State :=
  { s with eng := { s.eng with pixv := false, hdrv := false, filev := false } }

/-- The start of BLDHDR: `HDRV` and `FILEV` are cleared (R140). -/
def State.clearFromHdr (s : State) : State :=
  { s with eng := { s.eng with hdrv := false, filev := false } }

/-- The start of ASM: `FILEV` is cleared (R170). -/
def State.clearFile (s : State) : State :=
  { s with eng := { s.eng with filev := false } }

/-- The end of PACK (R126). -/
def State.setPixv (s : State) : State := { s with eng := { s.eng with pixv := true } }

/-- The end of BLDHDR (R140). -/
def State.setHdrv (s : State) : State := { s with eng := { s.eng with hdrv := true } }

/-- The end of ASM (R170). -/
def State.setFilev (s : State) : State := { s with eng := { s.eng with filev := true } }

end Sys2Proof.Machine
end

