-- ==== Sys2Proof/Machine/Operands.lean ====
section
/-! DEFINITION. The constants of `00_scope.md` R8, the arithmetic and byte-sequence notation of R11 and R12, the four reads of
the matrix source (`10_state.md` R20 to R22), and the two length functions ROWBYTES and pixelDataLength
(`40_bit_packer.md` R120, R122). Arithmetic is exact, on natural numbers (R121). -/

namespace Sys2Proof.Machine

/-- `FH_LEN` (R8). -/
abbrev fhLen : Nat := 14
/-- `IH_LEN` (R8). -/
abbrev ihLen : Nat := 40
/-- `CT_LEN` (R8). -/
abbrev ctLen : Nat := 8
/-- `HDR_LEN` (R8): the offset of the pixel data. -/
abbrev hdrLen : Nat := 62
/-- `ROW_ALIGN` (R8). -/
abbrev rowAlign : Nat := 4
/-- `PIX_PER_BYTE` (R8). -/
abbrev pixPerByte : Nat := 8
/-- `RES_PPM` (R8). -/
abbrev resPpm : Nat := 3780
/-- `DIM_MAX` (R8). -/
abbrev dimMax : Nat := 2 ^ 32 - 1

/-- `ceil_div(a, b)` (R11). -/
def ceilDiv (a b : Nat) : Nat := (a + b - 1) / b

/-- `roundup(a, m)` (R11). -/
def roundUp (a m : Nat) : Nat := ceilDiv a m * m

/-- `zeros(n)` (R12). -/
def zeros (n : Nat) : List Byte := List.replicate n 0

/-- `v[8 i + 7 : 8 i]`, byte `i` of a number (R10). -/
def byteOf (v i : Nat) : Byte := BitVec.ofNat 8 (v / 256 ^ i)

/-- `LE16(v)` (R12), for `v < 2^16`. -/
def le16 (v : Nat) : List Byte := [byteOf v 0, byteOf v 1]

/-- `LE32(v)` (R12), for `v < 2^32`. -/
def le32 (v : Nat) : List Byte := [byteOf v 0, byteOf v 1, byteOf v 2, byteOf v 3]

/-- `ASCII("BM")` (R12, R55): `0x42` first. -/
def asciiBM : List Byte := [0x42#8, 0x4D#8]

/-- The number that bytes spell, least significant byte first (R54, R59): how a reader of `FILE` takes a field. -/
def leNat : List Byte → Nat
  | [] => 0
  | b :: rest => b.toNat + 256 * leNat rest

/-- `SrcW()` (R20). -/
def srcW (m : Matrix) : Nat := m.width

/-- `SrcH()` (R20): the number of rows. -/
def srcH (m : Matrix) : Nat := m.rows.length

/-- `SrcRowLen(r)` (R20), defined when `r < SrcH()`. -/
def srcRowLen (m : Matrix) (r : Nat) : Option Nat := m.rows[r]?.map List.length

/-- `SrcCell(r, c)` (R20): a `CELLW`-bit value, defined when `r < SrcH()` and `c < SrcRowLen(r)`: the low bits of
what the matrix holds (DEDUCED, log 12). -/
def srcCell (cfg : Config) (m : Matrix) (r c : Nat) : Option Nat :=
  (m.rows[r]?.bind (·[c]?)).map (· % 2 ^ cfg.cellw)

/-- The dot of a cell value: "only bit 0 of a cell is significant" (R22). -/
def dotOf (cell : Nat) : Nat := cell &&& 1

/-- ROWBYTES, the scanline length of a width (R120). -/
def rowBytes (w : Nat) : Nat := roundUp (ceilDiv w pixPerByte) rowAlign

/-- pixelDataLength (R122). -/
def pixelDataLength (w h : Nat) : Nat := rowBytes w * h

/-- A number as the contents of a 32-bit register; exact once VALIDATE has shown that it fits (R86, R121). -/
def toWord (n : Nat) : Word := BitVec.ofNat 32 n

end Sys2Proof.Machine
end

