-- ==== Sys2Proof/Machine/Ops.lean ====
section
/-! DEFINITION. The shared operations: the byte spaces (`00_scope.md` R13), the registers, the response that ends a command and
the error that ends one (`60_exceptions.md` R190 to R197), how a command's stages are put together, and the sink primitives
(`10_state.md` R32). -/

namespace Sys2Proof.Machine

/-! ## The byte spaces (R13, R50, R52) -/

/-- The bytes of a space. -/
def State.space (s : State) : Space → List Byte
  | .pix => s.eng.pix
  | .hdr => s.eng.hdr
  | .file => s.eng.file

/-- Put a whole byte sequence into a space: the lines `PIX <- …` and `FILE <- …` (R126, R170). -/
def State.setSpace (s : State) : Space → List Byte → State
  | .pix, v => { s with eng := { s.eng with pix := v } }
  | .hdr, v => { s with eng := { s.eng with hdr := v } }
  | .file, v => { s with eng := { s.eng with file := v } }

/-- One byte of a space, `none` past its end (R52: "no byte beyond it"). -/
def readByte (sp : Space) (a : Nat) (s : State) : Option Byte := (s.space sp)[a]?

/-- `MemRead(SPACE, addr, n)` (R13). -/
def memRead (sp : Space) (addr n : Nat) (s : State) : Except Fault (List Byte) :=
  if addr + n ≤ (s.space sp).length then .ok (((s.space sp).drop addr).take n) else .error .spaceRange

/-- `MemWrite(SPACE, addr, n, v)` (R13): the `n`-byte sequence `v` at offsets `addr .. addr + n − 1`. -/
def memWrite (sp : Space) (addr n : Nat) (v : List Byte) (s : State) : Except Fault State :=
  if addr + n ≤ (s.space sp).length ∧ v.length = n then
    .ok (s.setSpace sp ((s.space sp).take addr ++ v ++ (s.space sp).drop (addr + n)))
  else .error .spaceRange

/-! ## The operand registers (R24, R25) -/

/-- `WIDTH`, `HEIGHT`, `BPR` and `PDLEN` take what VALIDATE returned (R126). -/
def State.latch (s : State) (w h bpr n : Nat) : State :=
  { s with eng := { s.eng with width := toWord w, height := toWord h, bpr := toWord bpr, pdlen := toWord n } }

/-- The registers and buffers are unspecified from here on (R126, R183, R39, U18): each takes a free value that may depend on
what it held (log 4). -/
def State.unspecify (s : State) : State :=
  { s with
    eng :=
      { s.eng with
        width := Config.openWord s.freeCtr s.eng.width
        height := Config.openWord (s.freeCtr + 1) s.eng.height
        bpr := Config.openWord (s.freeCtr + 2) s.eng.bpr
        pdlen := Config.openWord (s.freeCtr + 3) s.eng.pdlen
        pix := Config.openBytes s.freeCtr s.eng.pix
        hdr := (Config.openHeader s.freeCtr s.eng.hdr).toList
        file := Config.openBytes (s.freeCtr + 1) s.eng.file }
    freeCtr := s.freeCtr + 4 }

/-! ## Responses and errors (R34, R35, R190 to R197) -/

/-- The sub-causes of `InvalidDimension` (R191). -/
inductive SubCause where
  /-- 1: the width is out of range. -/
  | widthRange
  /-- 2: the height is out of range. -/
  | heightRange
  /-- 3: a row has another length than the width. -/
  | raggedRow
  /-- 4: the file size is not representable. -/
  | fileSize
  /-- 5: the buffer cannot hold the pixel data. -/
  | capacity
  deriving DecidableEq, Repr

/-- The number of a sub-cause (R191). -/
def subCauseNumber : SubCause → Word
  | .widthRange => 1
  | .heightRange => 2
  | .raggedRow => 3
  | .fileSize => 4
  | .capacity => 5

/-- The four errors (R190), each with what it reports. -/
inductive EngineError where
  | invalidDimension (sub : SubCause)
  | ioFailure (cause : Cause)
  | illegalCommand (code : Byte)
  | sequenceError (code : Byte)
  deriving DecidableEq, Repr

/-- The response code `OK` (R190). -/
abbrev okCode : Byte := 0

/-- `code(E)` (R190). -/
def errorCode : EngineError → Byte
  | .invalidDimension _ => 1
  | .ioFailure _ => 2
  | .illegalCommand _ => 3
  | .sequenceError _ => 4

/-- `info` of an error (R34, R190): command codes are zero-extended. -/
def errorInfo : EngineError → Info
  | .invalidDimension sub => .word (subCauseNumber sub)
  | .ioFailure cause => .cause cause
  | .illegalCommand code => .word (code.setWidth 32)
  | .sequenceError code => .word (code.setWidth 32)

/-- A command ends: `ERR` and `ERRINFO` are written and the host is given the response (R34, R35). -/
def State.respond (s : State) (code : Byte) (info : Info) (data : List Byte) : State :=
  { s with
    eng := { s.eng with err := code, errinfo := info }
    port := { s.port with responses := s.port.responses ++ [{ code := code, info := info, data := data }] } }

/-- Error entry, steps 3 and 4 of R196: `ERR <- code(E)`, `ERRINFO <- info`, the response `(code(E), info, empty)`. Nothing else
is saved and control goes nowhere. There is no return beside it: "There is no return-from-error command and nothing to restore"
(R197). -/
def takeError (e : EngineError) (s : State) : State := s.respond (errorCode e) (errorInfo e) []

/-- How the pseudocode of a command, or of a part of one, ends. -/
inductive Stage where
  /-- It reaches `return OK(data)`. -/
  | done (s : State) (data : List Byte)
  /-- It reaches `raise`: "Every state change the command made before the `raise` stands" (R196). -/
  | raised (e : EngineError) (s : State)
  /-- A primitive's requirement fails (R13, R20, R141). -/
  | stop (f : Fault)
  deriving DecidableEq, Repr

/-- `do X` and then the rest (R172): `X` up to, but not including, its `return OK`; a `raise` inside it ends the whole. -/
def Stage.andThen : Stage → (State → Stage) → Stage
  | .done s _, rest => rest s
  | .raised e s, _ => .raised e s
  | .stop f, _ => .stop f

/-- Use the result of a primitive that may fail its requirement. -/
def Stage.ofExcept {α : Type} (r : Except Fault α) (rest : α → Stage) : Stage :=
  match r with
  | .ok a => rest a
  | .error f => .stop f

/-- The end of a command: the response `(OK, 0, data)`, or the error (R13, R190, R196). -/
def Stage.finish : Stage → Host.Outcome State Fault Refusal
  | .done s data => .next (s.respond okCode (.word 0) data)
  | .raised e s => .next (takeError e s)
  | .stop f => .fault f

/-- The first line of a command that needs a result: if it is not held, `SequenceError` with the command's own code, before
anything has changed (R193). -/
def needs (held : Bool) (i : Instr) (s : State) (rest : State → Stage) : Stage :=
  if held then rest s else .raised (.sequenceError (encodeCode i)) s

/-! ## The sinks (R32) -/

/-- The value of a named sink that the list does not hold (log 6). -/
def Sink.unlisted : Sink := { isOpen := false, content := [] }

/-- Look a name up in the list of named sinks. -/
def lookupSink (n : Nat) : List (Nat × Sink) → Sink
  | [] => Sink.unlisted
  | (k, v) :: rest => if n = k then v else lookupSink n rest

/-- Put an entry at the head of a list, or leave it out if it is the value of a name not listed. -/
def consSink (n : Nat) (v : Sink) (rest : List (Nat × Sink)) : List (Nat × Sink) :=
  if v = Sink.unlisted then rest else (n, v) :: rest

/-- Give a name another sink value, keeping the list's form (rising names, no entry equal to the value of a name not listed). -/
def updateSink (n : Nat) (v : Sink) : List (Nat × Sink) → List (Nat × Sink)
  | [] => consSink n v []
  | (k, x) :: rest =>
    if n < k then consSink n v ((k, x) :: rest)
    else if n = k then consSink n v rest
    else (k, x) :: updateSink n v rest

/-- The sink object a command addresses (R32, C9). -/
def State.sink (s : State) : SinkRef → Sink
  | .named p => lookupSink p.id s.env.named
  | .stream => s.env.stream

/-- Give a sink object another value. -/
def State.setSink (s : State) : SinkRef → Sink → State
  | .named p, v => { s with env := { s.env with named := updateSink p.id v s.env.named } }
  | .stream, v => { s with env := { s.env with stream := v } }

/-- The answer of a sink primitive (R32); `k` is 0 but for a write. -/
inductive SinkAnswer where
  | ok
  | fail (k : Nat) (cause : Cause)
  deriving DecidableEq, Repr

/-- What the sink chooses at this call: the next choice the host supplied, or else a free value (log 5). -/
def takeChoice (s : State) : SinkChoice × State :=
  match s.env.choices with
  | c :: cs => (c, { s with env := { s.env with choices := cs } })
  | [] => (Config.freeChoice s.freeCtr, { s with freeCtr := s.freeCtr + 1 })

/-- `SinkOpen(path)` (R32): `Ok` opens the sink and empties it; a failure leaves it as it is. -/
def sinkOpen (p : Path) (s : State) : SinkAnswer × State :=
  let (c, s) := takeChoice s
  if c.accept then (.ok, s.setSink (.named p) { isOpen := true, content := [] })
  else (.fail 0 c.cause, s)

/-- How many bytes of a failed write the sink took: at most the length, and none if `SINK_ATOMIC` (R32, R181). -/
def takenBytes (cfg : Config) (c : SinkChoice) (len : Nat) : Nat :=
  if cfg.sinkAtomic then 0 else min c.taken len

/-- `SinkWrite(b)` (R32): appends all of `b`, or the first `k` bytes if it fails; on a sink that is not open it answers
`Fail(0, cause)`. -/
def sinkWrite (ref : SinkRef) (b : List Byte) (s : State) : SinkAnswer × State :=
  let (c, s) := takeChoice s
  let old := s.sink ref
  if old.isOpen then
    if c.accept then (.ok, s.setSink ref { old with content := old.content ++ b })
    else
      let k := takenBytes s.config c b.length
      (.fail k c.cause, s.setSink ref { old with content := old.content ++ b.take k })
  else (.fail 0 c.cause, s)

/-- `SinkClose()` (R32): the sink is closed whether the answer is `Ok` or a failure. -/
def sinkClose (ref : SinkRef) (s : State) : SinkAnswer × State :=
  let (c, s) := takeChoice s
  let s := s.setSink ref { s.sink ref with isOpen := false }
  if c.accept then (.ok, s) else (.fail 0 c.cause, s)

/-- `if a = Fail(k, cause): raise IoFailure(cause)` (R178, R180). -/
def orIoFailure (a : SinkAnswer) (s : State) (rest : State → Stage) : Stage :=
  match a with
  | .ok => rest s
  | .fail _ cause => .raised (.ioFailure cause) s

end Sys2Proof.Machine
end

