-- ==== Sys2Proof/Machine/Header.lean ====
section
/-! DEFINITION. The Header Builder (`41_header_builder.md`): the function BuildHeaders and the command BLDHDR. -/

namespace Sys2Proof.Machine

/-- The FileHeader (R81, R141 to R146). -/
def fileHeader (n : Nat) : List Byte := asciiBM ++ le32 (62 + n) ++ le16 0 ++ le16 0 ++ le32 62

/-- The InfoHeader (R82, R141, R147 to R157). -/
def infoHeader (w h n : Nat) : List Byte :=
  le32 40 ++ le32 w ++ le32 h ++ le16 1 ++ le16 1 ++ le32 0 ++ le32 n ++ le32 resPpm ++ le32 resPpm ++ le32 0 ++ le32 0

/-- A colour entry: blue, green, red, reserved (R56, R83). -/
def colourEntry (blue green red : Byte) : List Byte := [blue, green, red, 0x00#8]

/-- The ColorTable: entry 0, then entry 1 (R83, R158, R159). -/
def colourTable : List Byte := colourEntry 0x00#8 0x00#8 0x00#8 ++ colourEntry 0xFF#8 0xFF#8 0xFF#8

/-- BuildHeaders(w, h, n) (R141), defined for `w ≤ 2^32 − 1`, `h ≤ 2^32 − 1`, `n ≤ 2^32 − 63`. It does not check that `n` is the
length that `w` and `h` give. -/
def buildHeaders (w h n : Nat) : Except Fault (List Byte × List Byte × List Byte) :=
  if w ≤ dimMax ∧ h ≤ dimMax ∧ n ≤ 2 ^ 32 - 63 then .ok (fileHeader n, infoHeader w h n, colourTable)
  else .error .headerRange

/-- BLDHDR up to its `return OK` (R140). -/
def bldhdrStage (s : State) : Stage :=
  needs s.eng.pixv .bldhdr s fun s =>
    let s := s.clearFromHdr
    Stage.ofExcept (buildHeaders s.eng.width.toNat s.eng.height.toNat s.eng.pdlen.toNat) fun (fh, ih, ct) =>
      Stage.ofExcept (memWrite .hdr 0 fhLen fh s) fun s =>
        Stage.ofExcept (memWrite .hdr 14 ihLen ih s) fun s =>
          Stage.ofExcept (memWrite .hdr 54 ctLen ct s) fun s =>
            .done s.setHdrv []

/-- The command BLDHDR, code `0x02` (R140). -/
def execBldhdr (s : State) : Host.Outcome State Fault Refusal := (bldhdrStage s).finish

end Sys2Proof.Machine
end

