-- ==== Sys2Proof/Machine/Packer.lean ====
section
/-! DEFINITION. The Bit Packer (`40_bit_packer.md`): VALIDATE, SETDOT, PACK; the closed form of `PIX` (R88, R127) and the test
function UNPACK (R132). -/

namespace Sys2Proof.Machine

/-! ## VALIDATE (R123) -/

/-- What VALIDATE returns: `(w, h, bpr, n)`. -/
structure Dims where
  w : Nat
  h : Nat
  bpr : Nat
  n : Nat
  deriving DecidableEq, Repr

/-- Check 3: does some row `r` of `0 .. h − 1` have another length than `w`? -/
def someRowRagged (m : Matrix) (w h : Nat) : Bool :=
  (List.range h).any fun r => decide (srcRowLen m r ≠ some w)

/-- VALIDATE (R123): the first check that fails decides the sub-cause. -/
def validate (cfg : Config) (m : Matrix) : Except SubCause Dims :=
  let w := srcW m
  let h := srcH m
  if w > dimMax then .error .widthRange
  else if h > dimMax then .error .heightRange
  else if someRowRagged m w h then .error .raggedRow
  else
    let bpr := rowBytes w
    let n := bpr * h
    if hdrLen + n > dimMax then .error .fileSize
    else if n > cfg.pixcap then .error .capacity
    else .ok { w := w, h := h, bpr := bpr, n := n }

/-! ## SETDOT (R124) -/

/-- The effective address in `PIX` of a cell (R124): `(HEIGHT − 1 − r) * BPR + (c div 8)`. -/
def dotOffset (height bpr r c : Nat) : Nat := (height - 1 - r) * bpr + c / 8

/-- The bit position of a column, 7 the most significant (R57, R124). -/
def dotPos (c : Nat) : Nat := 7 - c % 8

/-- `b << pos` as a byte (R124). -/
def dotMask (b pos : Nat) : Byte := BitVec.ofNat 8 (b <<< pos)

/-- SETDOT(r, c) (R124): one bit is OR-ed into one byte of `PIX`. -/
def setDot (r c : Nat) (s : State) : Except Fault State :=
  match srcCell s.config s.env.matrix r c with
  | none => .error .sourceRange
  | some cell =>
    let off := dotOffset s.eng.height.toNat s.eng.bpr.toNat r c
    match memRead .pix off 1 s with
    | .ok [old] => memWrite .pix off 1 [old ||| dotMask (dotOf cell) (dotPos c)] s
    | _ => .error .spaceRange

/-! ## PACK (R126) -/

/-- `for i in 0 .. n − 1: body(i)` (R13): increasing order, empty if `n = 0`. -/
def forUpTo (body : Nat → State → Except Fault State) : Nat → State → Except Fault State
  | 0, s => .ok s
  | n + 1, s =>
    match forUpTo body n s with
    | .ok s => body n s
    | .error f => .error f

/-- The two loops of PACK: rows top to bottom, columns left to right (R126). -/
def setAllDots (h w : Nat) (s : State) : Except Fault State :=
  forUpTo (fun r => forUpTo (fun c => setDot r c) w) h s

/-- PACK up to its `return OK` (R126). If VALIDATE raises, the registers and buffers are unspecified (R126, D14). -/
def packStage (s : State) : Stage :=
  let s := s.clearValid
  match validate s.config s.env.matrix with
  | .error sub => .raised (.invalidDimension sub) s.unspecify
  | .ok d =>
    Stage.ofExcept (setAllDots d.h d.w ((s.latch d.w d.h d.bpr d.n).setSpace .pix (zeros d.n))) fun s =>
      .done s.setPixv []

/-- The command PACK, code `0x01` (R126). -/
def execPack (s : State) : Host.Outcome State Fault Refusal := (packStage s).finish

/-! ## The closed form and UNPACK -/

/-- SETDOT at each cell of a list, in the list's order: for order independence (R128). -/
def setDots : List (Nat × Nat) → State → Except Fault State
  | [], s => .ok s
  | (r, c) :: rest, s =>
    match setDot r c s with
    | .ok s => setDots rest s
    | .error f => .error f

/-- The cells in the order PACK visits them: rows top to bottom, columns left to right (R126). -/
def allCells (h w : Nat) : List (Nat × Nat) := (List.range h).flatMap fun r => (List.range w).map fun c => (r, c)

/-- The dot of row `r`, column `c`: `SrcCell(r, c) & 1` (R22); 0 where the matrix source defines no cell, which the closed form
never reads (DESIGN CHOICE, log 14). -/
def matrixDot (cfg : Config) (m : Matrix) (r c : Nat) : Nat :=
  match srcCell cfg m r c with
  | some cell => dotOf cell
  | none => 0

/-- The OR of R88 over the lanes `0 .. n − 1` of byte `j` of source row `r`. -/
def laneOr (cfg : Config) (m : Matrix) (w r j : Nat) : Nat → Byte
  | 0 => 0
  | k + 1 =>
    laneOr cfg m w r j k |||
      (if 8 * j + k < w then dotMask (matrixDot cfg m r (8 * j + k)) (7 - k) else 0)

/-- The byte of `PIX` at byte `j` of scanline `line` (R88, R127). -/
def pixelByte (cfg : Config) (m : Matrix) (w h line j : Nat) : Byte := laneOr cfg m w (h - 1 - line) j 8

/-- The PackedPixelData of a matrix in closed form (R84, R127): the scanlines in order, nothing between them. -/
def pixelData (cfg : Config) (m : Matrix) (d : Dims) : List Byte :=
  (List.range d.n).map fun a => pixelByte cfg m d.w d.h (a / d.bpr) (a % d.bpr)

/-- One cell of UNPACK(PIX, w, h) (R132). -/
def unpackDot (pix : List Byte) (w h r c : Nat) : Option Nat :=
  pix[(h - 1 - r) * rowBytes w + c / 8]?.map fun b => (b.toNat >>> (7 - c % 8)) &&& 1

end Sys2Proof.Machine
end

