-- ==== Sys2Proof/Machine/Assembler.lean ====
section
/-! DEFINITION. The Assembler and the outputs (`42_assembler_and_sinks.md`): ASM, ENCODE, GETBYTES, WRFILE, WRSINK, DISCARD. -/

namespace Sys2Proof.Machine

/-- ASM up to its `return OK` (R170). -/
def asmStage (s : State) : Stage :=
  needs (s.eng.pixv && s.eng.hdrv) .asm s fun s =>
    let s := s.clearFile
    Stage.ofExcept (memRead .hdr 0 hdrLen s) fun header =>
      Stage.ofExcept (memRead .pix 0 s.eng.pdlen.toNat s) fun pixels =>
        .done (s.setSpace .file (header ++ pixels)).setFilev []

/-- The command ASM, code `0x03` (R170). -/
def execAsm (s : State) : Host.Outcome State Fault Refusal := (asmStage s).finish

/-- The command ENCODE, code `0x04` (R172): PACK, BLDHDR, ASM, each up to its `return OK`. -/
def execEncode (s : State) : Host.Outcome State Fault Refusal :=
  (((packStage s).andThen bldhdrStage).andThen asmStage).finish

/-- `MemRead(FILE, 0, 62 + x[PDLEN])`: the held file (R175, R178, R180). -/
def heldFile (s : State) : Except Fault (List Byte) := memRead .file 0 (hdrLen + s.eng.pdlen.toNat) s

/-- The command GETBYTES, code `0x05` (R175). -/
def execGetbytes (s : State) : Host.Outcome State Fault Refusal :=
  (needs s.eng.filev .getbytes s fun s =>
    Stage.ofExcept (heldFile s) fun bytes => .done s bytes).finish

/-- WRFILE after its open has answered `Ok` (R178, R179): the close follows whatever the write answers; of two failures the
write's is reported. -/
def writeAndClose (p : Path) (bytes : List Byte) (s : State) : Stage :=
  let (w, s) := sinkWrite (.named p) bytes s
  let (z, s) := sinkClose (.named p) s
  orIoFailure w s fun s => orIoFailure z s fun s => .done s []

/-- The command WRFILE, code `0x06`, with the name the host holds (R178). -/
def execWrfile (s : State) : Host.Outcome State Fault Refusal :=
  (needs s.eng.filev .wrfile s fun s =>
    let p := s.env.path
    let (a, s) := sinkOpen p s
    orIoFailure a s fun s => Stage.ofExcept (heldFile s) fun bytes => writeAndClose p bytes s).finish

/-- The command WRSINK, code `0x07` (R180): `STREAM` is neither opened nor closed. -/
def execWrsink (s : State) : Host.Outcome State Fault Refusal :=
  (needs s.eng.filev .wrsink s fun s =>
    Stage.ofExcept (heldFile s) fun bytes =>
      let (w, s) := sinkWrite .stream bytes s
      orIoFailure w s fun s => .done s []).finish

/-- The command DISCARD, code `0x08` (R183): the flags are cleared; the registers and buffers are unspecified after it. -/
def execDiscard (s : State) : Host.Outcome State Fault Refusal := (Stage.done s.clearValid.unspecify []).finish

end Sys2Proof.Machine
end

