-- ==== Sys2Proof/Machine/Dispatch.lean ====
section
/-! DEFINITION. One arm per command (`30_encoding.md` R100). -/

namespace Sys2Proof.Machine

def exec (i : Instr) (s : State) : Host.Outcome State Fault Refusal :=
  match i with
  | .pack => Sys2Proof.Machine.execPack s
  | .bldhdr => Sys2Proof.Machine.execBldhdr s
  | .asm => Sys2Proof.Machine.execAsm s
  | .encode => Sys2Proof.Machine.execEncode s
  | .getbytes => Sys2Proof.Machine.execGetbytes s
  | .wrfile => Sys2Proof.Machine.execWrfile s
  | .wrsink => Sys2Proof.Machine.execWrsink s
  | .discard => Sys2Proof.Machine.execDiscard s

end Sys2Proof.Machine
end

