-- ==== Sys2Proof/Machine/HostActions.lean ====
section
/-! DEFINITION. The host's side of the machine (`42_assembler_and_sinks.md` R185): an illegal code at the port, the reset event,
and what the host does to the objects it owns (DEDUCED, log 13). -/

namespace Sys2Proof.Machine

/-- A code that is no command ends at once with `IllegalCommand` and changes `ERR` and `ERRINFO` only (R101, R194). -/
def illegalCommand (code : Byte) (s : State) : State := takeError (.illegalCommand code) s

/-- The reset event (R220, R222): the flags, `ERR` and `ERRINFO` become 0, the registers and buffers are unspecified; the matrix
source and the sinks are not touched. -/
def hostReset (s : State) : State :=
  let s := s.clearValid.unspecify
  { s with eng := { s.eng with err := 0, errinfo := .word 0 } }

/-- The host presents another matrix (R23). -/
def presentMatrix (m : Matrix) (s : State) : State := { s with env := { s.env with matrix := m } }

/-- The host holds another file name (R223). -/
def holdPath (p : Path) (s : State) : State := { s with env := { s.env with path := p } }

/-- The host supplies what the sinks will choose next, after what it has already supplied (R104). -/
def supplyChoices (cs : List SinkChoice) (s : State) : State :=
  { s with env := { s.env with choices := s.env.choices ++ cs } }

/-- The event is taken off the host's script. -/
def popScript (rest : List HostEvent) (s : State) : State := { s with port := { s.port with script := rest } }

/-- The event is put first on the host's script. -/
def pushEvent (e : HostEvent) (s : State) : State := { s with port := { s.port with script := e :: s.port.script } }

end Sys2Proof.Machine
end

