-- ==== Sys2Proof/Machine/Step.lean ====
section
/-! DEFINITION. One step: the machine takes the host's next event. A command code is decoded and the command runs from start to
end (`10_state.md` R35, `20_memory.md` R68; DEDUCED, log 11); with no event the engine is idle and holds its state (`60_exceptions.md` R207). -/

namespace Sys2Proof.Machine

/-- The port takes a code (R35): the command runs, or the code is illegal (R101). -/
def runCode (code : Byte) (s : State) : Host.Outcome State Fault Refusal :=
  match decodeCode code with
  | some i => exec i s
  | none => .next (illegalCommand code s)

/-- One step of the machine. -/
def step (s : State) : Host.Outcome State Fault Refusal :=
  match s.port.script with
  | [] => .next s
  | e :: rest =>
    let s := popScript rest s
    match e with
    | .command code => runCode code s
    | .presentMatrix m => .next (presentMatrix m s)
    | .holdPath p => .next (holdPath p s)
    | .setSink ref sink => .next (s.setSink ref sink)
    | .sinkChoices cs => .next (supplyChoices cs s)
    | .reset => .next (hostReset s)

/-- The host's next event is the command of this table word, so that the next step runs it. -/
def State.withFetchWord (s : State) (nbits w : Nat) : State := pushEvent (.command (tableByte nbits w)) s

end Sys2Proof.Machine
end

