-- ==== Sys2Proof/Machine/System.lean ====
section
/-! DEFINITION. Several engines (`20_memory.md` R72, `60_exceptions.md` R205): a system holds `NINST` engines, each with a state
and a host of its own; they share nothing. -/

namespace Sys2Proof.Machine

/-- `NINST` engines, each with sinks of its own (DESIGN CHOICE, log 10). -/
abbrev System (ninst : Nat) := Vector State ninst

/-- One engine takes a step; a stop of it is its own. -/
def systemStep {ninst : Nat} (k : Fin ninst) (y : System ninst) : Host.Outcome (System ninst) Fault Refusal :=
  match step y[k] with
  | .next t => .next (y.set k t)
  | .fault f => .fault f
  | .refused r => .refused r

/-- Every engine right after reset. -/
def systemReset (ninst : Nat) : System ninst := Vector.replicate ninst State.reset

end Sys2Proof.Machine
end

