-- ==== Sys2Proof/Safety.lean ====
section
/-! DEFINITION. What a safe run is: the invariant of the state (`10_state.md` R26, R33, R34, `30_encoding.md` R90, R93) that every step
keeps, and under which no step stops (`60_exceptions.md` R208: "Fault: none", "Stuck: never"). -/

namespace Sys2Proof.Machine

/-- The form of what the state holds in lists: `HDR` has its 62 bytes (R52), and the named sinks stand by rising name with none
that is closed and empty, so that equal collections of sinks are equal lists. -/
abbrev Memory.wf (s : State) : Prop :=
  s.eng.hdr.length = 62 ∧ s.env.named.Pairwise (fun a b => a.1 < b.1) ∧ ∀ e ∈ s.env.named, e.2 ≠ Sink.unlisted

/-- The 62 header bytes as a template (R90), the four fields that depend on the matrix filled in. -/
def headerTemplate (w h n : Nat) : List Byte :=
  [0x42#8, 0x4D#8] ++ le32 (62 + n) ++ [0x00#8, 0x00#8, 0x00#8, 0x00#8, 0x3E#8, 0x00#8, 0x00#8, 0x00#8] ++
  [0x28#8, 0x00#8, 0x00#8, 0x00#8] ++ le32 w ++ le32 h ++ [0x01#8, 0x00#8, 0x01#8, 0x00#8] ++
  [0x00#8, 0x00#8, 0x00#8, 0x00#8] ++ le32 n ++ [0xC4#8, 0x0E#8, 0x00#8, 0x00#8, 0xC4#8, 0x0E#8, 0x00#8, 0x00#8] ++
  [0x00#8, 0x00#8, 0x00#8, 0x00#8, 0x00#8, 0x00#8, 0x00#8, 0x00#8] ++
  [0x00#8, 0x00#8, 0x00#8, 0x00#8, 0xFF#8, 0xFF#8, 0xFF#8, 0x00#8]

/-- Every padding position of pixel data is zero (R93, R129): a bit whose column is `w` or more. -/
def PaddingZero (pix : List Byte) (w h bpr : Nat) : Prop :=
  ∀ line j k, line < h → j < bpr → k < 8 → w ≤ 8 * j + k →
    ∀ b, pix[line * bpr + j]? = some b → b.getLsbD (7 - k) = false

/-- What the registers and `PIX` satisfy while `PIXV` is set (R26, R129). -/
structure PackedInv (s : State) : Prop where
  bpr_eq : s.eng.bpr.toNat = rowBytes s.eng.width.toNat
  pdlen_eq : s.eng.pdlen.toNat = s.eng.bpr.toNat * s.eng.height.toNat
  pdlen_le : s.eng.pdlen.toNat ≤ 2 ^ 32 - 63
  pdlen_cap : s.eng.pdlen.toNat ≤ s.config.pixcap
  pix_length : s.eng.pix.length = s.eng.pdlen.toNat
  padding : PaddingZero s.eng.pix s.eng.width.toNat s.eng.height.toNat s.eng.bpr.toNat

/-- The legal pairs of `ERR` and `ERRINFO` (R34, R190). -/
def reportLegal (err : Byte) (info : Info) : Prop :=
  (err = 0 ∧ info = .word 0) ∨
  (err = 1 ∧ ∃ sub : Word, 1 ≤ sub.toNat ∧ sub.toNat ≤ 5 ∧ info = .word sub) ∨
  (err = 2 ∧ ∃ c : Cause, info = .cause c) ∨
  (err = 3 ∧ ∃ code : Byte, legalCode code = false ∧ info = .word (code.setWidth 32)) ∨
  (err = 4 ∧ ∃ code : Byte, code ∈ [0x02#8, 0x03#8, 0x05#8, 0x06#8, 0x07#8] ∧ info = .word (code.setWidth 32))

/-- The invariant of the machine. -/
structure State.Inv (s : State) : Prop where
  /-- `CELLW ≥ 1` (R9). -/
  config_wf : s.config.wf = true
  mem_wf : Memory.wf s
  /-- `FILEV = 1` implies `HDRV = 1` and `PIXV = 1` (R33). -/
  file_needs : s.eng.filev = true → s.eng.hdrv = true ∧ s.eng.pixv = true
  /-- `HDRV = 1` implies `PIXV = 1` (R33). -/
  hdr_needs : s.eng.hdrv = true → s.eng.pixv = true
  packed : s.eng.pixv = true → PackedInv s
  /-- `HDRV = 1`: `HDR` is the header of the current registers (R33, R90). -/
  header : s.eng.hdrv = true →
    s.eng.hdr = headerTemplate s.eng.width.toNat s.eng.height.toNat s.eng.pdlen.toNat
  /-- `FILEV = 1`: `FILE` is the assembly of the current `HDR` and `PIX` (R33, R170). -/
  file : s.eng.filev = true → s.eng.file = s.eng.hdr ++ s.eng.pix
  report : reportLegal s.eng.err s.eng.errinfo

/-- A step is safe if it neither faults nor is refused (R208). -/
def StepSafe (s : State) : Prop := ∃ t, step s = .next t

end Sys2Proof.Machine
end

