-- ==== Sys2Proof/Certificates/Slice0/Obligations.lean ====
section
/-! DEFINITION. The statements for the provers, in the order of the spec: encoding and the command port, the Bit Packer, the Header
Builder, the Assembler and ENCODE, the outputs, DISCARD and reset, and the rules about the whole machine. -/

namespace Sys2Proof

open Machine

/-! ## Words the statements use -/

/-- The state after a command that ended with this response and left everything else of `s` as it is (R34, R35). -/
def endsWith (s : State) (code : Byte) (info : Info) (data : List Byte) : State :=
  { s with
    eng := { s.eng with err := code, errinfo := info }
    port := { s.port with responses := s.port.responses ++ [⟨code, info, data⟩] } }

/-- `MemRead(FILE, 0, 62 + x[PDLEN])`, where the space is long enough. -/
def fileBytes (s : State) : List Byte := s.eng.file.take (62 + s.eng.pdlen.toNat)

/-- The space `FILE` is long enough for that read. -/
def FileReadable (s : State) : Prop := 62 + s.eng.pdlen.toNat ≤ s.eng.file.length

/-- Two matrix sources with equal widths, heights and row lengths and equal low bits of every cell (R133); the other bits of the
cells, and the widths of the cells, may differ. -/
def SameDots (cfg : Config) (m : Matrix) (cfg' : Config) (m' : Matrix) : Prop :=
  srcW m = srcW m' ∧ srcH m = srcH m' ∧ (∀ r, srcRowLen m r = srcRowLen m' r) ∧
    ∀ r c, matrixDot cfg m r c = matrixDot cfg' m' r c

/-- The result that a command needs is not held (R193). -/
def lacksResult (i : Instr) (s : State) : Bool :=
  match i with
  | .bldhdr => !s.eng.pixv
  | .asm => !s.eng.pixv || !s.eng.hdrv
  | .getbytes => !s.eng.filev
  | .wrfile => !s.eng.filev
  | .wrsink => !s.eng.filev
  | .pack => false
  | .encode => false
  | .discard => false

/-- The table of R195: may the command end with the response code? -/
def mayEndWith (i : Instr) (code : Byte) : Prop :=
  match i with
  | .pack => code = 0 ∨ code = 1
  | .bldhdr => code = 0 ∨ code = 4
  | .asm => code = 0 ∨ code = 4
  | .encode => code = 0 ∨ code = 1
  | .getbytes => code = 0 ∨ code = 4
  | .wrfile => code = 0 ∨ code = 2 ∨ code = 4
  | .wrsink => code = 0 ∨ code = 2 ∨ code = 4
  | .discard => code = 0

/-- The four bytes at an offset, as a little-endian number (R59). -/
def field4 (bytes : List Byte) (offset : Nat) : Nat := leNat ((bytes.drop offset).take 4)

/-- The two bytes at an offset, as a little-endian number (R59). -/
def field2 (bytes : List Byte) (offset : Nat) : Nat := leNat ((bytes.drop offset).take 2)

end Sys2Proof

open Sys2Proof Sys2Proof.Machine

/-! ## Encoding and the command port -/

/-- Decoding the encoding of a command gives the command back and leaves what follows it (R100, R103). -/
def Obligations.DecodeEncodeAgree : Prop :=
  ∀ (i : Instr) (rest : List Byte), i.wf = true → decode (encode i ++ rest) = .ok (i, rest)

/-- Every code is either one command's or illegal, and the illegal codes are `0x00` and `0x09` to `0xFF` (R101, R102). -/
def Obligations.EveryCodeIsCommandOrIllegal : Prop :=
  ∀ code : Byte,
    (∀ i, decodeCode code = some i ↔ code = encodeCode i) ∧
    (decodeCode code = none ↔ code = 0x00#8 ∨ 0x09#8 ≤ code)

/-- The eight codes of the table of R100, written out bit by bit. -/
def Obligations.TableCodesDecode : Prop :=
  decode [0b00000001#8] = .ok (.pack, []) ∧ decode [0b00000010#8] = .ok (.bldhdr, []) ∧
  decode [0b00000011#8] = .ok (.asm, []) ∧ decode [0b00000100#8] = .ok (.encode, []) ∧
  decode [0b00000101#8] = .ok (.getbytes, []) ∧ decode [0b00000110#8] = .ok (.wrfile, []) ∧
  decode [0b00000111#8] = .ok (.wrsink, []) ∧ decode [0b00001000#8] = .ok (.discard, [])

/-- When the host's next event is a code that decodes to a command, the step is that command, run at the state from which the
event has been taken (R35, R68). That the host's next event heads a script, and that a command is one step, is the model's form
(log 8 and 11). -/
def Obligations.StepRunsDecodedCommand : Prop :=
  ∀ (s : State) (code : Byte) (rest : List HostEvent) (i : Instr),
    s.port.script = .command code :: rest → decode [code] = .ok (i, []) →
    step s = exec i { s with port := { s.port with script := rest } }

/-- An illegal code ends at once with `IllegalCommand` and the code zero-extended; it changes `ERR` and `ERRINFO` and nothing
else of the engine, and nothing of the environment (R101, R194). -/
def Obligations.IllegalCodeChangesOnlyReport : Prop :=
  ∀ (s : State) (code : Byte) (rest : List HostEvent),
    s.port.script = .command code :: rest → code = 0x00#8 ∨ 0x09#8 ≤ code →
    step s = .next (endsWith { s with port := { s.port with script := rest } } 3 (.word (code.setWidth 32)) [])

/-- With no event from the host the engine is idle and holds its state (R207; an empty script is the model's form of it, log 8). -/
def Obligations.IdleEngineHoldsState : Prop :=
  ∀ s : State, s.port.script = [] → step s = .next s

/-- What the host does between commands, other than issuing a code or reset, changes the object it acts on and never the engine
(R185, R32). That supplied choices are queued after the old ones, and that the host may set a sink to any value, is the model's
reading (DEDUCED, log 13). -/
def Obligations.HostActionsLeaveEngineAlone : Prop :=
  ∀ (s : State) (e : HostEvent) (rest : List HostEvent), s.port.script = e :: rest →
    (∀ m, e = .presentMatrix m →
      step s = .next { s with env := { s.env with matrix := m }, port := { s.port with script := rest } }) ∧
    (∀ p, e = .holdPath p →
      step s = .next { s with env := { s.env with path := p }, port := { s.port with script := rest } }) ∧
    (∀ cs, e = .sinkChoices cs →
      step s = .next { s with env := { s.env with choices := s.env.choices ++ cs }, port := { s.port with script := rest } }) ∧
    (∀ ref v, e = .setSink ref v → Memory.wf s → ∃ t, step s = .next t ∧
      t.eng = s.eng ∧ t.port = { s.port with script := rest } ∧ t.config = s.config ∧ t.env.matrix = s.env.matrix ∧
      t.env.path = s.env.path ∧ t.env.choices = s.env.choices ∧
      t.sink ref = v ∧ ∀ ref', ref' ≠ ref → t.sink ref' = s.sink ref')

/-- Every command gives exactly one response, equal to what `ERR` and `ERRINFO` then hold; its data is empty except for a
successful GETBYTES; the responses given before stay as they are, and the host's script, the parameters, the matrix and the
held name are untouched (R34, R35, R176). The record of responses is the model's (log 8). -/
def Obligations.OneResponsePerCommand : Prop :=
  ∀ (i : Instr) (s t : State), exec i s = .next t →
    ∃ data, t.port.responses = s.port.responses ++ [⟨t.eng.err, t.eng.errinfo, data⟩] ∧
      (data ≠ [] → i = .getbytes ∧ t.eng.err = 0) ∧
      t.port.script = s.port.script ∧ t.config = s.config ∧ t.env.matrix = s.env.matrix ∧ t.env.path = s.env.path

/-! ## The Bit Packer -/

/-- ROWBYTES is the smallest multiple of 4 that holds `ceil(width/8)` bytes, with the closed forms and the corner values of
R120. -/
def Obligations.RowBytesIsLeastMultiple : Prop :=
  (∀ w : Nat, 4 ∣ rowBytes w ∧ w ≤ 8 * rowBytes w ∧ (∀ m, 4 ∣ m → w ≤ 8 * m → rowBytes w ≤ m) ∧
    rowBytes w = ((w + 7) / 8 + 3) / 4 * 4 ∧ rowBytes w = (w + 31) / 32 * 4) ∧
  rowBytes 0 = 0 ∧ (∀ w, 1 ≤ w → w ≤ 32 → rowBytes w = 4) ∧ rowBytes 33 = 8 ∧ rowBytes (2 ^ 32 - 1) = 2 ^ 29 ∧
  rowBytes 9 = 4

/-- pixelDataLength is ROWBYTES times the height, 0 exactly when a dimension is 0, and a multiple of 4 (R122). -/
def Obligations.PixelDataLengthLaws : Prop :=
  (∀ w h : Nat, pixelDataLength w h = rowBytes w * h ∧ (pixelDataLength w h = 0 ↔ w = 0 ∨ h = 0) ∧
    4 ∣ pixelDataLength w h) ∧
  pixelDataLength 1 1 = 4 ∧ pixelDataLength 8 2 = 8 ∧ pixelDataLength 9 1 = 4

/-- VALIDATE reports the first check that fails, in the order width, height, rows, file size, capacity, and otherwise returns
the four dimensions (R123). -/
def Obligations.ValidateReportsFirstFailure : Prop :=
  ∀ (cfg : Config) (m : Matrix),
    let w := srcW m
    let h := srcH m
    let big := w ≤ 2 ^ 32 - 1 ∧ h ≤ 2 ^ 32 - 1
    let even := ∀ r, r < h → srcRowLen m r = some w
    let fits := 62 + rowBytes w * h ≤ 2 ^ 32 - 1
    (validate cfg m = .error .widthRange ↔ 2 ^ 32 - 1 < w) ∧
    (validate cfg m = .error .heightRange ↔ w ≤ 2 ^ 32 - 1 ∧ 2 ^ 32 - 1 < h) ∧
    (validate cfg m = .error .raggedRow ↔ big ∧ ∃ r, r < h ∧ srcRowLen m r ≠ some w) ∧
    (validate cfg m = .error .fileSize ↔ big ∧ even ∧ 2 ^ 32 - 1 < 62 + rowBytes w * h) ∧
    (validate cfg m = .error .capacity ↔ big ∧ even ∧ fits ∧ cfg.pixcap < rowBytes w * h) ∧
    (∀ d, validate cfg m = .ok d ↔
      big ∧ even ∧ fits ∧ rowBytes w * h ≤ cfg.pixcap ∧
        d = { w := w, h := h, bpr := rowBytes w, n := rowBytes w * h })

/-- Only bit 0 of a cell is significant, whatever the width of the cells and the higher bits (R22). A read gives the
low `CELLW` bits of what the matrix holds (DEDUCED, log 12). -/
def Obligations.OnlyLowBitOfCellCounts : Prop :=
  ∀ (cfg : Config) (m : Matrix) (r c v : Nat) (row : List Nat),
    cfg.wf = true → m.rows[r]? = some row → row[c]? = some v → matrixDot cfg m r c = v % 2

/-- SETDOT reads one byte of `PIX` at `(HEIGHT − 1 − r) * BPR + (c div 8)`, ORs the dot into bit `7 − (c mod 8)`, writes it back,
and changes nothing else (R124). -/
def Obligations.SetDotOrsOneBit : Prop :=
  ∀ (s : State) (r c cell : Nat) (old : Byte),
    srcCell s.config s.env.matrix r c = some cell →
    readByte .pix ((s.eng.height.toNat - 1 - r) * s.eng.bpr.toNat + c / 8) s = some old →
    ∃ t, setDot r c s = .ok t ∧
      readByte .pix ((s.eng.height.toNat - 1 - r) * s.eng.bpr.toNat + c / 8) t =
        some (old ||| BitVec.ofNat 8 ((cell &&& 1) <<< (7 - c % 8))) ∧
      (∀ a, a ≠ (s.eng.height.toNat - 1 - r) * s.eng.bpr.toNat + c / 8 → readByte .pix a t = readByte .pix a s) ∧
      t = { s with eng := { s.eng with pix := t.eng.pix } }

/-- Rows do not alias and columns are independent: SETDOT writes only bytes of its own scanline, and leaves the bit of every other
cell as it is (R130). -/
def Obligations.SetDotLeavesOtherCellsAlone : Prop :=
  ∀ (s t : State) (r c : Nat), s.eng.bpr.toNat = rowBytes s.eng.width.toNat →
    r < s.eng.height.toNat → c < s.eng.width.toNat → setDot r c s = .ok t →
    (∀ a, a < (s.eng.height.toNat - 1 - r) * s.eng.bpr.toNat ∨ (s.eng.height.toNat - r) * s.eng.bpr.toNat ≤ a →
      readByte .pix a t = readByte .pix a s) ∧
    (∀ r' c', r' < s.eng.height.toNat → c' < s.eng.width.toNat → (r' ≠ r ∨ c' ≠ c) →
      unpackDot t.eng.pix s.eng.width.toNat s.eng.height.toNat r' c' =
        unpackDot s.eng.pix s.eng.width.toNat s.eng.height.toNat r' c')

/-- PACK of a matrix that VALIDATE accepts completes with `OK`: the registers hold the dimensions, `PIX` is the closed form of the
pixel data, `PIXV` is set and the later flags are clear, and nothing else has changed (R126, R127). -/
def Obligations.PackBuildsPixelData : Prop :=
  ∀ (s : State) (d : Dims), validate s.config s.env.matrix = .ok d →
    exec .pack s = .next (endsWith
      { s with eng :=
        { s.eng with
          width := BitVec.ofNat 32 d.w, height := BitVec.ofNat 32 d.h
          bpr := BitVec.ofNat 32 d.bpr, pdlen := BitVec.ofNat 32 d.n
          pix := pixelData s.config s.env.matrix d, pixv := true, hdrv := false, filev := false } }
      0 (.word 0) [])

/-- After a PACK the registers hold the exact dimensions of the matrix (R24, R25), and byte `j` of scanline `line` of `PIX` is the
OR of its eight lanes: lane `k` is the dot of column `8 j + k` of row `HEIGHT − 1 − line` in bit `7 − k`, for the columns
below `WIDTH` (R88, R127). -/
def Obligations.PixBytesAreOrOfLanes : Prop :=
  ∀ s t : State, exec .pack s = .next t → t.eng.pixv = true →
    t.eng.width.toNat = srcW s.env.matrix ∧ t.eng.height.toNat = srcH s.env.matrix ∧
    t.eng.bpr.toNat = rowBytes (srcW s.env.matrix) ∧ t.eng.pdlen.toNat = rowBytes (srcW s.env.matrix) * srcH s.env.matrix ∧
    t.eng.pix.length = t.eng.pdlen.toNat ∧
    ∀ line j, line < t.eng.height.toNat → j < t.eng.bpr.toNat →
      let lane := fun k : Nat =>
        if 8 * j + k < t.eng.width.toNat then
          BitVec.ofNat 8 (matrixDot s.config s.env.matrix (t.eng.height.toNat - 1 - line) (8 * j + k) <<< (7 - k))
        else 0#8
      readByte .pix (line * t.eng.bpr.toNat + j) t =
        some (lane 0 ||| lane 1 ||| lane 2 ||| lane 3 ||| lane 4 ||| lane 5 ||| lane 6 ||| lane 7)

/-- The result of PACK does not depend on the order in which the cells are visited (R128). -/
def Obligations.PackOrderIndependent : Prop :=
  ∀ (s : State) (d : Dims) (l : List (Nat × Nat)), validate s.config s.env.matrix = .ok d →
    l.Perm (allCells d.h d.w) →
    setDots l ((s.latch d.w d.h d.bpr d.n).setSpace .pix (zeros d.n)) =
      setAllDots d.h d.w ((s.latch d.w d.h d.bpr d.n).setSpace .pix (zeros d.n))

/-- The round trip: unpacking what PACK made gives back the low bit of every cell of the matrix (R132). -/
def Obligations.UnpackRecoversEveryDot : Prop :=
  ∀ s t : State, exec .pack s = .next t → t.eng.pixv = true →
    ∀ r c, r < srcH s.env.matrix → c < srcW s.env.matrix →
      ∃ cell, srcCell s.config s.env.matrix r c = some cell ∧
        unpackDot t.eng.pix t.eng.width.toNat t.eng.height.toNat r c = some (cell &&& 1)

/-- After a PACK every padding bit and padding byte is 0, and a scanline has from 0 to 31 padding bits, 0 when the width is a
multiple of 32 (R129). -/
def Obligations.PackPadsWithZeros : Prop :=
  ∀ s t : State, exec .pack s = .next t → t.eng.pixv = true →
    PaddingZero t.eng.pix t.eng.width.toNat t.eng.height.toNat t.eng.bpr.toNat ∧
    (∀ line j, line < t.eng.height.toNat → j < t.eng.bpr.toNat → (t.eng.width.toNat + 7) / 8 ≤ j →
      readByte .pix (line * t.eng.bpr.toNat + j) t = some 0) ∧
    t.eng.width.toNat ≤ 8 * t.eng.bpr.toNat ∧ 8 * t.eng.bpr.toNat ≤ t.eng.width.toNat + 31 ∧
    (32 ∣ t.eng.width.toNat → 8 * t.eng.bpr.toNat = t.eng.width.toNat)

/-- A matrix with a dimension of 0 is packed to empty pixel data; the dimensions are latched as they are (R131). -/
def Obligations.ZeroSizedMatrixPacksToNothing : Prop :=
  ∀ s : State, srcW s.env.matrix = 0 ∨ srcH s.env.matrix = 0 →
    srcW s.env.matrix ≤ 2 ^ 32 - 1 → srcH s.env.matrix ≤ 2 ^ 32 - 1 →
    (∀ r, r < srcH s.env.matrix → srcRowLen s.env.matrix r = some (srcW s.env.matrix)) →
    ∃ t, exec .pack s = .next t ∧ t.eng.err = 0 ∧ t.eng.pixv = true ∧ t.eng.pix = [] ∧ t.eng.pdlen = 0 ∧
      t.eng.width.toNat = srcW s.env.matrix ∧ t.eng.height.toNat = srcH s.env.matrix ∧
      t.eng.bpr.toNat = rowBytes (srcW s.env.matrix)

/-- PACK is a function of the dots alone: on matrices with equal dots, two engines with one capacity answer alike and leave equal
registers and `PIX`, whatever they held before (R133). -/
def Obligations.PackDependsOnDotsOnly : Prop :=
  ∀ s s' t t' : State, SameDots s.config s.env.matrix s'.config s'.env.matrix → s.config.pixcap = s'.config.pixcap →
    exec .pack s = .next t → exec .pack s' = .next t' →
    t.eng.err = t'.eng.err ∧ t.eng.errinfo = t'.eng.errinfo ∧ t.eng.pixv = t'.eng.pixv ∧
    (t.eng.pixv = true → t.eng.width = t'.eng.width ∧ t.eng.height = t'.eng.height ∧ t.eng.bpr = t'.eng.bpr ∧
      t.eng.pdlen = t'.eng.pdlen ∧ t.eng.pix = t'.eng.pix)

/-- PACK and ENCODE of a matrix that VALIDATE refuses end with `InvalidDimension` and the sub-cause; the three flags are clear,
and the environment and the parameters are as before. Of the registers and buffers nothing is said: they are unspecified
(R126, R172, R196). -/
def Obligations.InvalidMatrixClearsFlags : Prop :=
  ∀ (s : State) (sub : SubCause), validate s.config s.env.matrix = .error sub →
    ∀ i, i = .pack ∨ i = .encode →
      ∃ t, exec i s = .next t ∧ t.eng.pixv = false ∧ t.eng.hdrv = false ∧ t.eng.filev = false ∧
        t.eng.err = 1 ∧ t.eng.errinfo = .word (subCauseNumber sub) ∧ t.env = s.env ∧ t.config = s.config ∧
        t.port.script = s.port.script ∧
        t.port.responses = s.port.responses ++ [⟨1, .word (subCauseNumber sub), []⟩]

/-! ## The Header Builder -/

/-- `LE16` and `LE32` put the least significant byte first, and a reader of the field gets the value back (R54, R86). -/
def Obligations.FieldsAreLittleEndian : Prop :=
  (∀ v, v < 2 ^ 16 → (le16 v).length = 2 ∧ leNat (le16 v) = v) ∧
  (∀ v, v < 2 ^ 32 → (le32 v).length = 4 ∧ leNat (le32 v) = v)

/-- BuildHeaders is defined exactly on the triples within its bounds, gives 14, 40 and 8 bytes, and they are the template of R90;
it does not check that `n` is the length that `w` and `h` give (R141). That a triple outside the bounds gives an error is the
model's reading, for R141 gives no outcome there (DEDUCED, log 9). -/
def Obligations.BuildHeadersGivesTemplate : Prop :=
  ∀ w h n : Nat,
    (w ≤ 2 ^ 32 - 1 ∧ h ≤ 2 ^ 32 - 1 ∧ n ≤ 2 ^ 32 - 63 →
      ∃ fh ih ct, buildHeaders w h n = .ok (fh, ih, ct) ∧ fh.length = 14 ∧ ih.length = 40 ∧ ct.length = 8 ∧
        fh ++ ih ++ ct = headerTemplate w h n) ∧
    (¬ (w ≤ 2 ^ 32 - 1 ∧ h ≤ 2 ^ 32 - 1 ∧ n ≤ 2 ^ 32 - 63) → ∃ f, buildHeaders w h n = .error f)

/-- BLDHDR completes with `OK` when dimensions are latched: all 62 bytes of `HDR` become the template for `WIDTH`, `HEIGHT` and
`PDLEN`, `HDRV` is set, `FILEV` cleared, nothing else changes; without them it ends with `SequenceError` before anything
changes (R140, R90). The premises on `HDR` and `PDLEN` hold in every state that meets the invariant. -/
def Obligations.BldhdrWritesHeader : Prop :=
  ∀ s : State,
    (s.eng.pixv = true → s.eng.hdr.length = 62 → s.eng.pdlen.toNat ≤ 2 ^ 32 - 63 →
      exec .bldhdr s = .next (endsWith
        { s with eng :=
          { s.eng with
            hdr := headerTemplate s.eng.width.toNat s.eng.height.toNat s.eng.pdlen.toNat
            hdrv := true, filev := false } }
        0 (.word 0) [])) ∧
    (s.eng.pixv = false → exec .bldhdr s = .next (endsWith s 4 (.word 0x02) []))

/-- After a successful BLDHDR the fields of `HDR` read as R160 says; all 62 bytes are a function of `WIDTH`, `HEIGHT` and `PDLEN`,
and the 46 bytes outside four fields are constant. -/
def Obligations.HeaderFieldsAfterBldhdr : Prop :=
  (∀ s t : State, s.eng.pdlen.toNat ≤ 2 ^ 32 - 63 → s.eng.hdr.length = 62 → exec .bldhdr s = .next t → t.eng.err = 0 →
    t.eng.hdr.take 2 = [0x42#8, 0x4D#8] ∧ field4 t.eng.hdr 2 = 62 + t.eng.pdlen.toNat ∧ field4 t.eng.hdr 10 = 62 ∧
    field4 t.eng.hdr 18 = t.eng.width.toNat ∧ field4 t.eng.hdr 22 = t.eng.height.toNat ∧
    field4 t.eng.hdr 34 = t.eng.pdlen.toNat ∧
    t.eng.hdr.drop 54 = [0x00#8, 0x00#8, 0x00#8, 0x00#8, 0xFF#8, 0xFF#8, 0xFF#8, 0x00#8] ∧
    field4 t.eng.hdr 2 - field4 t.eng.hdr 10 = field4 t.eng.hdr 34 ∧
    t.eng.hdr = headerTemplate t.eng.width.toNat t.eng.height.toNat t.eng.pdlen.toNat) ∧
  (∀ w h n w' h' n' a : Nat,
    ¬ (2 ≤ a ∧ a ≤ 5) → ¬ (18 ≤ a ∧ a ≤ 21) → ¬ (22 ≤ a ∧ a ≤ 25) → ¬ (34 ≤ a ∧ a ≤ 37) →
    (headerTemplate w h n)[a]? = (headerTemplate w' h' n')[a]?)

/-! ## The Assembler and ENCODE -/

/-- ASM completes with `OK` when both inputs are held: `FILE` becomes `HDR` followed by `PIX`, `FILEV` is set, nothing else
changes; without one of them it ends with `SequenceError` before anything changes (R170). The premises on the lengths hold in
every state that meets the invariant. -/
def Obligations.AsmConcatenates : Prop :=
  ∀ s : State,
    (s.eng.pixv = true → s.eng.hdrv = true → s.eng.hdr.length = 62 → s.eng.pix.length = s.eng.pdlen.toNat →
      exec .asm s = .next (endsWith
        { s with eng := { s.eng with file := s.eng.hdr ++ s.eng.pix, filev := true } } 0 (.word 0) [])) ∧
    (s.eng.pixv = false ∨ s.eng.hdrv = false → exec .asm s = .next (endsWith s 4 (.word 0x03) []))

/-- The layout of a held `FILE`: the header, then `PIX`; its length is `62 + PDLEN` and equals the number at offset 2
(R66, R85, R171). -/
def Obligations.HeldFileLayout : Prop :=
  ∀ s : State, s.Inv → s.eng.filev = true →
    s.eng.file.take 62 = s.eng.hdr ∧ s.eng.file.drop 62 = s.eng.pix ∧
    s.eng.file.length = 62 + s.eng.pdlen.toNat ∧ field4 s.eng.file 2 = s.eng.file.length

/-- What no held `FILE` ever differs in, whatever the input (R94). -/
def Obligations.HeldFileConstants : Prop :=
  ∀ s : State, s.Inv → s.eng.filev = true →
    s.eng.file.take 2 = [0x42#8, 0x4D#8] ∧ field4 s.eng.file 10 = 62 ∧ field4 s.eng.file 14 = 40 ∧
    field2 s.eng.file 26 = 1 ∧ field2 s.eng.file 28 = 1 ∧ field4 s.eng.file 30 = 0 ∧
    field4 s.eng.file 38 = 3780 ∧ field4 s.eng.file 42 = 3780 ∧ field4 s.eng.file 46 = 0 ∧ field4 s.eng.file 50 = 0 ∧
    (s.eng.file.drop 54).take 8 = [0x00#8, 0x00#8, 0x00#8, 0x00#8, 0xFF#8, 0xFF#8, 0xFF#8, 0x00#8] ∧
    4 ∣ s.eng.bpr.toNat ∧ field4 s.eng.file 2 = s.eng.file.length

/-- ENCODE of a matrix that VALIDATE accepts completes with `OK`: the registers hold the dimensions, `PIX` is the closed form of the
pixel data, `HDR` the header for them, `FILE` the two together, all three flags are set, and nothing else has changed (R172).
The premise on `HDR` holds in every state that meets the invariant. -/
def Obligations.EncodeBuildsFile : Prop :=
  ∀ (s : State) (d : Dims), validate s.config s.env.matrix = .ok d → s.eng.hdr.length = 62 →
    exec .encode s = .next (endsWith
      { s with eng :=
        { s.eng with
          width := BitVec.ofNat 32 d.w, height := BitVec.ofNat 32 d.h
          bpr := BitVec.ofNat 32 d.bpr, pdlen := BitVec.ofNat 32 d.n
          pix := pixelData s.config s.env.matrix d, hdr := headerTemplate d.w d.h d.n
          file := headerTemplate d.w d.h d.n ++ pixelData s.config s.env.matrix d
          pixv := true, hdrv := true, filev := true } }
      0 (.word 0) [])

/-- ENCODE equals PACK, BLDHDR and ASM issued one after another on the same matrix, except that one response is given and not
three (R173). -/
def Obligations.EncodeEqualsThreeCommands : Prop :=
  ∀ s s₁ s₂ s₃ : State, exec .pack s = .next s₁ → s₁.eng.err = 0 → exec .bldhdr s₁ = .next s₂ → exec .asm s₂ = .next s₃ →
    exec .encode s = .next
      { s₃ with port := { s₃.port with responses := s.port.responses ++ [⟨0, .word 0, []⟩] } }

/-- The file an ENCODE makes is a function of the dots alone and of nothing the engine held before: encoding the same matrix
twice gives byte-identical output (R40, R173). -/
def Obligations.EncodeDependsOnDotsOnly : Prop :=
  ∀ s s' t t' : State, SameDots s.config s.env.matrix s'.config s'.env.matrix → s.config.pixcap = s'.config.pixcap →
    exec .encode s = .next t → exec .encode s' = .next t' →
    t.eng.err = t'.eng.err ∧ t.eng.filev = t'.eng.filev ∧ (t.eng.filev = true → t.eng.file = t'.eng.file)

/-- After a failed ENCODE there is nothing to output: GETBYTES, WRFILE and WRSINK end with `SequenceError` (R174). -/
def Obligations.FailedEncodeLeavesNothingToOutput : Prop :=
  ∀ s t : State, exec .encode s = .next t → t.eng.err ≠ 0 →
    exec .getbytes t = .next (endsWith t 4 (.word 0x05) []) ∧
    exec .wrfile t = .next (endsWith t 4 (.word 0x06) []) ∧
    exec .wrsink t = .next (endsWith t 4 (.word 0x07) [])

/-! ## The outputs -/

/-- GETBYTES completes with `OK` and the `62 + PDLEN` bytes of `FILE` as response data when a file is held, with `SequenceError`
when none is, and changes `ERR` and `ERRINFO` only (R175). `FileReadable` holds in every state that meets the invariant and
holds a file. -/
def Obligations.GetbytesReturnsFile : Prop :=
  ∀ s : State,
    (s.eng.filev = true → FileReadable s → exec .getbytes s = .next (endsWith s 0 (.word 0) (fileBytes s))) ∧
    (s.eng.filev = false → exec .getbytes s = .next (endsWith s 4 (.word 0x05) []))

/-- WRFILE, by what the sink chooses at the open (`a`), the write (`b`) and the close (`c`) (R178): if the open fails the sink is
untouched; otherwise the sink is emptied, takes the file or the first `k` bytes of it, and is closed in every case; of two
failures the write's cause is reported; without a held file nothing is called. The engine changes in `ERR` and `ERRINFO` only,
and no other sink is touched. That each call uses one supplied choice, and that the length a failed write takes is cut to what
R32 and R181 allow, is the model's choice (DESIGN CHOICE, log 5). -/
def Obligations.WrfileByChoices : Prop :=
  ∀ (s : State) (a b c : SinkChoice) (rest : List SinkChoice), Memory.wf s → s.env.choices = a :: b :: c :: rest →
    (s.eng.filev = false → exec .wrfile s = .next (endsWith s 4 (.word 0x06) [])) ∧
    (s.eng.filev = true → FileReadable s → a.accept = false →
      exec .wrfile s = .next (endsWith { s with env := { s.env with choices := b :: c :: rest } } 2 (.cause a.cause) [])) ∧
    (s.eng.filev = true → FileReadable s → a.accept = true →
      let k := if s.config.sinkAtomic then 0 else min b.taken (fileBytes s).length
      let taken := if b.accept then fileBytes s else (fileBytes s).take k
      let report : Byte × Info :=
        if b.accept = false then (2, .cause b.cause) else if c.accept = false then (2, .cause c.cause) else (0, .word 0)
      ∃ t, exec .wrfile s = .next t ∧
        t.sink (.named s.env.path) = { isOpen := false, content := taken } ∧
        (∀ ref, ref ≠ .named s.env.path → t.sink ref = s.sink ref) ∧
        t.env.choices = rest ∧ t.env.matrix = s.env.matrix ∧ t.env.path = s.env.path ∧ t.config = s.config ∧
        t.eng = { s.eng with err := report.1, errinfo := report.2 } ∧ t.port.script = s.port.script ∧
        t.port.responses = s.port.responses ++ [⟨report.1, report.2, []⟩])

/-- WRFILE completes whatever the sink answers, also when the host supplied no choice, and releases the sink on every path: it is
closed afterwards if the open answers `Ok`; if the open fails, every sink is untouched and the open's cause is reported
(R178, R179). Where no choice was supplied the answer is a free value (log 5). -/
def Obligations.WrfileAlwaysReleases : Prop :=
  ∀ s : State, Memory.wf s → s.eng.filev = true → FileReadable s →
    ∃ t, exec .wrfile s = .next t ∧
      (((sinkOpen s.env.path s).1 = .ok ∧ (t.sink (.named s.env.path)).isOpen = false) ∨
        ∃ cause, (sinkOpen s.env.path s).1 = .fail 0 cause ∧ (∀ ref, t.sink ref = s.sink ref) ∧
          t.eng.err = 2 ∧ t.eng.errinfo = .cause cause)

/-- WRSINK, by what the sink chooses (R180): on an open `STREAM` it appends the file, or the first `k` bytes of it if the write
fails; on a `STREAM` that is not open it fails and nothing is written; `STREAM` stays as open as it was; without a held file
nothing is called. The engine changes in `ERR` and `ERRINFO` only, and no other sink is touched. That the call uses one supplied
choice, also on a `STREAM` that is not open, where it gives the cause, and that the length a failed write takes is cut to what
R32 and R181 allow, is the model's choice (DESIGN CHOICE, log 5). -/
def Obligations.WrsinkByChoices : Prop :=
  ∀ (s : State) (b : SinkChoice) (rest : List SinkChoice), s.env.choices = b :: rest →
    (s.eng.filev = false → exec .wrsink s = .next (endsWith s 4 (.word 0x07) [])) ∧
    (s.eng.filev = true → FileReadable s → s.env.stream.isOpen = false →
      exec .wrsink s = .next (endsWith { s with env := { s.env with choices := rest } } 2 (.cause b.cause) [])) ∧
    (s.eng.filev = true → FileReadable s → s.env.stream.isOpen = true →
      let k := if s.config.sinkAtomic then 0 else min b.taken (fileBytes s).length
      let taken := if b.accept then fileBytes s else (fileBytes s).take k
      let report : Byte × Info := if b.accept then (0, .word 0) else (2, .cause b.cause)
      exec .wrsink s = .next (endsWith
        { s with env :=
          { s.env with choices := rest, stream := { isOpen := true, content := s.env.stream.content ++ taken } } }
        report.1 report.2 []))

/-- WRSINK completes whatever the sink answers, also when the host supplied no choice; if it fails, the sink has taken the first `k`
bytes, none if `SINK_ATOMIC`, and stays as open as it was (R180, R181). Where no choice was supplied the answer is
a free value (log 5). -/
def Obligations.WrsinkLeavesStartOfFileOnFailure : Prop :=
  ∀ s : State, s.eng.filev = true → FileReadable s →
    ∃ t, exec .wrsink s = .next t ∧ t.env.stream.isOpen = s.env.stream.isOpen ∧
      ((t.eng.err = 0 ∧ t.env.stream.content = s.env.stream.content ++ fileBytes s) ∨
        (t.eng.err = 2 ∧ ∃ k, k ≤ (fileBytes s).length ∧ (s.config.sinkAtomic = true → k = 0) ∧
          t.env.stream.content = s.env.stream.content ++ (fileBytes s).take k))

/-- A WRFILE that fails leaves the named sink untouched, where its open failed, or else closed and holding the first `k` bytes of
the file. With `SINK_ATOMIC` these are none of the bytes, after a failed write, or all of them, after a close that fails behind
a complete write (R178, R181). -/
def Obligations.WrfileLeavesStartOfFileOnFailure : Prop :=
  ∀ s t : State, Memory.wf s → exec .wrfile s = .next t → t.eng.err = 2 →
    ((∃ cause, (sinkOpen s.env.path s).1 = .fail 0 cause) ∧
      t.sink (.named s.env.path) = s.sink (.named s.env.path)) ∨
    ∃ k, (sinkOpen s.env.path s).1 = .ok ∧ k ≤ (fileBytes s).length ∧
      t.sink (.named s.env.path) = { isOpen := false, content := (fileBytes s).take k } ∧
      (s.config.sinkAtomic = true → k = 0 ∨ k = (fileBytes s).length)

/-- The three outputs change no flag, register or buffer of the engine, whether they succeed or fail (R65, R177, R182). -/
def Obligations.OutputsLeaveEngineAlone : Prop :=
  ∀ (i : Instr) (s t : State), i = .getbytes ∨ i = .wrfile ∨ i = .wrsink → exec i s = .next t →
    t.eng = { s.eng with err := t.eng.err, errinfo := t.eng.errinfo }

/-- The three outputs deliver the same bytes of one held `FILE` (R177). -/
def Obligations.OutputsDeliverSameBytes : Prop :=
  ∀ s g f w : State, Memory.wf s → exec .getbytes s = .next g → g.eng.err = 0 →
    exec .wrfile s = .next f → f.eng.err = 0 → exec .wrsink s = .next w → w.eng.err = 0 →
    ∃ bytes, g.port.responses = s.port.responses ++ [⟨0, .word 0, bytes⟩] ∧
      f.sink (.named s.env.path) = { isOpen := false, content := bytes } ∧
      w.env.stream.content = s.env.stream.content ++ bytes

/-! ## DISCARD and reset -/

/-- DISCARD always completes with `OK`, with nothing held too: the three flags are clear, no sink is called, and GETBYTES then ends
with `SequenceError`. Of the registers and buffers nothing is said: they are unspecified (R183). -/
def Obligations.DiscardDropsEveryResult : Prop :=
  ∀ s : State, ∃ t, exec .discard s = .next t ∧
    t.eng.pixv = false ∧ t.eng.hdrv = false ∧ t.eng.filev = false ∧ t.eng.err = 0 ∧ t.eng.errinfo = .word 0 ∧
    t.env = s.env ∧ t.config = s.config ∧ t.port.script = s.port.script ∧
    t.port.responses = s.port.responses ++ [⟨0, .word 0, []⟩] ∧
    exec .getbytes t = .next (endsWith t 4 (.word 0x05) [])

/-- The reset event clears the flags, `ERR` and `ERRINFO`, and touches neither the matrix source nor any sink; no response is given.
Of the registers and buffers nothing is said: they are unspecified (R220, R222, R39). That the host's script and the record of
responses are kept is the model's choice (DESIGN CHOICE, log 8). -/
def Obligations.ResetEventTouchesNoSink : Prop :=
  ∀ (s : State) (rest : List HostEvent), s.port.script = .reset :: rest →
    ∃ t, step s = .next t ∧ t.env = s.env ∧
      t.eng.pixv = false ∧ t.eng.hdrv = false ∧ t.eng.filev = false ∧ t.eng.err = 0 ∧ t.eng.errinfo = .word 0 ∧
      t.port = { s.port with script := rest } ∧ t.config = s.config

/-- The state right after reset: flags, `ERR` and `ERRINFO` 0 and an idle port are the spec's (R39); the zeros of the registers and
of `HDR` and the empty `PIX` and `FILE` are the model's choice (log 1), and so are the environment (an empty matrix, name 0,
closed and empty sinks, no choice supplied: log 2) and `CELLW` = 8 (log 3); `PIXCAP` and `SINK_ATOMIC` have the defaults of
R9. -/
def Obligations.ResetStateValues : Prop :=
  State.reset.eng.pixv = false ∧ State.reset.eng.hdrv = false ∧ State.reset.eng.filev = false ∧
  State.reset.eng.err = 0 ∧ State.reset.eng.errinfo = .word 0 ∧ State.reset.port.script = [] ∧
  State.reset.eng.width = 0 ∧ State.reset.eng.height = 0 ∧ State.reset.eng.bpr = 0 ∧ State.reset.eng.pdlen = 0 ∧
  State.reset.eng.pix = [] ∧ State.reset.eng.hdr = zeros 62 ∧ State.reset.eng.file = [] ∧
  State.reset.env.matrix = { width := 0, rows := [] } ∧ State.reset.env.path = ⟨0⟩ ∧
  (∀ ref, State.reset.sink ref = { isOpen := false, content := [] }) ∧ State.reset.env.choices = [] ∧
  State.reset.port.responses = [] ∧ State.reset.config.cellw = 8 ∧
  State.reset.config.pixcap = 2 ^ 32 - 63 ∧ State.reset.config.sinkAtomic = false ∧ State.reset.config.wf = true

/-! ## Rules about the whole machine -/

/-- A command that needs a result that is not held ends with `SequenceError` and its own code, and nothing else of it has
happened; no command ends so in any other case, and PACK, ENCODE and DISCARD never do (R193). -/
def Obligations.SequenceErrorExactlyWhenResultLacks : Prop :=
  ∀ (i : Instr) (s : State),
    (lacksResult i s = true → exec i s = .next (endsWith s 4 (.word ((encodeCode i).setWidth 32)) [])) ∧
    (lacksResult i s = false → ∀ t, exec i s = .next t → t.eng.err ≠ 4)

/-- Which command can end with which response code: each one of the table of R195, and no other. -/
def Obligations.CommandsEndAsTheTableSays : Prop :=
  ∀ (i : Instr) (code : Byte), (∃ s t : State, exec i s = .next t ∧ t.eng.err = code) ↔ mayEndWith i code

/-- The operand registers and `PIX` are written by no command other than PACK and ENCODE, `HDR` by none other than BLDHDR and ENCODE,
`FILE` by none other than ASM and ENCODE (R24, R25, R29, R30, R31); DISCARD, and a PACK or ENCODE that fails, are left out
because their contents are then unspecified (R126, R183). -/
def Obligations.BuffersWrittenOnlyByTheirStage : Prop :=
  ∀ (i : Instr) (s t : State), exec i s = .next t → i ≠ .discard →
    (i ≠ .pack → i ≠ .encode → t.eng.width = s.eng.width ∧ t.eng.height = s.eng.height ∧ t.eng.bpr = s.eng.bpr ∧
      t.eng.pdlen = s.eng.pdlen ∧ ∀ a, readByte .pix a t = readByte .pix a s) ∧
    (i ≠ .encode → i ≠ .bldhdr → t.eng.err ≠ 1 → ∀ a, readByte .hdr a t = readByte .hdr a s) ∧
    (i ≠ .encode → i ≠ .asm → t.eng.err ≠ 1 → ∀ a, readByte .file a t = readByte .file a s)

/-- What each command does to the valid flags (R33, R184, R229): a stage that completes sets its own flag and clears the later ones,
ENCODE sets all three, DISCARD and a failed PACK or ENCODE clear all three, and every other end leaves all three as they are. -/
def Obligations.FlagsFollowTheStages : Prop :=
  ∀ (i : Instr) (s t : State), exec i s = .next t →
    (t.eng.pixv, t.eng.hdrv, t.eng.filev) =
      (if i = .discard ∨ t.eng.err = 1 then (false, false, false)
      else if t.eng.err ≠ 0 then (s.eng.pixv, s.eng.hdrv, s.eng.filev)
      else if i = .pack then (true, false, false)
      else if i = .bldhdr then (true, true, false)
      else if i = .asm ∨ i = .encode then (true, true, true)
      else (s.eng.pixv, s.eng.hdrv, s.eng.filev))

/-- The environment is touched by WRFILE and WRSINK only, and by each in its own sink: no other command calls a sink, and no
command, those two among them, writes the matrix or the name the host holds (R50, R63, R67). -/
def Obligations.OnlyOutputCommandsCallSinks : Prop :=
  ∀ (i : Instr) (s t : State), exec i s = .next t →
    (i ≠ .wrfile → i ≠ .wrsink → t.env = s.env) ∧
    t.env.matrix = s.env.matrix ∧ t.env.path = s.env.path ∧
    (i = .wrfile → Memory.wf s → ∀ ref, ref ≠ .named s.env.path → t.sink ref = s.sink ref) ∧
    (i = .wrsink → ∀ p, t.sink (.named p) = s.sink (.named p))

/-- The invariant holds right after reset; its clauses about the fields reset leaves open rest on the model's choice (log 1, 2, 3). -/
def Obligations.InvariantAtReset : Prop := State.reset.Inv

/-- Every step keeps the invariant: the registers agree with each other and with `PIX`, the padding is zero, `HDR` and `FILE` are what
the flags say they are, the flags imply one another, `ERR` and `ERRINFO` hold a legal report, `HDR` keeps its length and the
sinks their form (R26, R33, R34, R93). -/
def Obligations.EveryStepKeepsInvariant : Prop :=
  ∀ s t : State, s.Inv → step s = .next t → t.Inv

/-- From a state that meets the invariant no step stops: there is no fault, no stuck state and no refusal (R208). -/
def Obligations.NoStepStops : Prop :=
  ∀ s : State, s.Inv → StepSafe s

/-- Engines of a system are independent: a step of one is a step of its own state and leaves every other as it is (R72). The
vector of states, each with sinks of its own, is the model's form (log 10). -/
def Obligations.EnginesAreIndependent : Prop :=
  ∀ (ninst : Nat) (k : Fin ninst) (y z : System ninst), systemStep k y = .next z →
    step y[k] = .next z[k] ∧ ∀ j : Fin ninst, j ≠ k → z[j] = y[j]
end

