-- ==== Sys2Proof/Laws/State.lean ====
section
/-! SUPPORT. One lemma per field per update of the state, each true by rfl, so that no proof unfolds a record update. -/

namespace Sys2Proof.Machine

variable (s : State)

/-! ### clearValid -/

@[simp] theorem clearValid_width : s.clearValid.eng.width = s.eng.width := rfl
@[simp] theorem clearValid_height : s.clearValid.eng.height = s.eng.height := rfl
@[simp] theorem clearValid_bpr : s.clearValid.eng.bpr = s.eng.bpr := rfl
@[simp] theorem clearValid_pdlen : s.clearValid.eng.pdlen = s.eng.pdlen := rfl
@[simp] theorem clearValid_pix : s.clearValid.eng.pix = s.eng.pix := rfl
@[simp] theorem clearValid_hdr : s.clearValid.eng.hdr = s.eng.hdr := rfl
@[simp] theorem clearValid_file : s.clearValid.eng.file = s.eng.file := rfl
@[simp] theorem clearValid_pixv : s.clearValid.eng.pixv = false := rfl
@[simp] theorem clearValid_hdrv : s.clearValid.eng.hdrv = false := rfl
@[simp] theorem clearValid_filev : s.clearValid.eng.filev = false := rfl
@[simp] theorem clearValid_err : s.clearValid.eng.err = s.eng.err := rfl
@[simp] theorem clearValid_errinfo : s.clearValid.eng.errinfo = s.eng.errinfo := rfl
@[simp] theorem clearValid_env : s.clearValid.env = s.env := rfl
@[simp] theorem clearValid_script : s.clearValid.port.script = s.port.script := rfl
@[simp] theorem clearValid_port : s.clearValid.port = s.port := rfl
@[simp] theorem clearValid_config : s.clearValid.config = s.config := rfl
@[simp] theorem clearValid_freeCtr : s.clearValid.freeCtr = s.freeCtr := rfl

/-! ### clearFromHdr -/

@[simp] theorem clearFromHdr_width : s.clearFromHdr.eng.width = s.eng.width := rfl
@[simp] theorem clearFromHdr_height : s.clearFromHdr.eng.height = s.eng.height := rfl
@[simp] theorem clearFromHdr_bpr : s.clearFromHdr.eng.bpr = s.eng.bpr := rfl
@[simp] theorem clearFromHdr_pdlen : s.clearFromHdr.eng.pdlen = s.eng.pdlen := rfl
@[simp] theorem clearFromHdr_pix : s.clearFromHdr.eng.pix = s.eng.pix := rfl
@[simp] theorem clearFromHdr_hdr : s.clearFromHdr.eng.hdr = s.eng.hdr := rfl
@[simp] theorem clearFromHdr_file : s.clearFromHdr.eng.file = s.eng.file := rfl
@[simp] theorem clearFromHdr_pixv : s.clearFromHdr.eng.pixv = s.eng.pixv := rfl
@[simp] theorem clearFromHdr_hdrv : s.clearFromHdr.eng.hdrv = false := rfl
@[simp] theorem clearFromHdr_filev : s.clearFromHdr.eng.filev = false := rfl
@[simp] theorem clearFromHdr_err : s.clearFromHdr.eng.err = s.eng.err := rfl
@[simp] theorem clearFromHdr_errinfo : s.clearFromHdr.eng.errinfo = s.eng.errinfo := rfl
@[simp] theorem clearFromHdr_env : s.clearFromHdr.env = s.env := rfl
@[simp] theorem clearFromHdr_script : s.clearFromHdr.port.script = s.port.script := rfl
@[simp] theorem clearFromHdr_port : s.clearFromHdr.port = s.port := rfl
@[simp] theorem clearFromHdr_config : s.clearFromHdr.config = s.config := rfl
@[simp] theorem clearFromHdr_freeCtr : s.clearFromHdr.freeCtr = s.freeCtr := rfl

/-! ### clearFile -/

@[simp] theorem clearFile_width : s.clearFile.eng.width = s.eng.width := rfl
@[simp] theorem clearFile_height : s.clearFile.eng.height = s.eng.height := rfl
@[simp] theorem clearFile_bpr : s.clearFile.eng.bpr = s.eng.bpr := rfl
@[simp] theorem clearFile_pdlen : s.clearFile.eng.pdlen = s.eng.pdlen := rfl
@[simp] theorem clearFile_pix : s.clearFile.eng.pix = s.eng.pix := rfl
@[simp] theorem clearFile_hdr : s.clearFile.eng.hdr = s.eng.hdr := rfl
@[simp] theorem clearFile_file : s.clearFile.eng.file = s.eng.file := rfl
@[simp] theorem clearFile_pixv : s.clearFile.eng.pixv = s.eng.pixv := rfl
@[simp] theorem clearFile_hdrv : s.clearFile.eng.hdrv = s.eng.hdrv := rfl
@[simp] theorem clearFile_filev : s.clearFile.eng.filev = false := rfl
@[simp] theorem clearFile_err : s.clearFile.eng.err = s.eng.err := rfl
@[simp] theorem clearFile_errinfo : s.clearFile.eng.errinfo = s.eng.errinfo := rfl
@[simp] theorem clearFile_env : s.clearFile.env = s.env := rfl
@[simp] theorem clearFile_script : s.clearFile.port.script = s.port.script := rfl
@[simp] theorem clearFile_port : s.clearFile.port = s.port := rfl
@[simp] theorem clearFile_config : s.clearFile.config = s.config := rfl
@[simp] theorem clearFile_freeCtr : s.clearFile.freeCtr = s.freeCtr := rfl

/-! ### setPixv -/

@[simp] theorem setPixv_width : s.setPixv.eng.width = s.eng.width := rfl
@[simp] theorem setPixv_height : s.setPixv.eng.height = s.eng.height := rfl
@[simp] theorem setPixv_bpr : s.setPixv.eng.bpr = s.eng.bpr := rfl
@[simp] theorem setPixv_pdlen : s.setPixv.eng.pdlen = s.eng.pdlen := rfl
@[simp] theorem setPixv_pix : s.setPixv.eng.pix = s.eng.pix := rfl
@[simp] theorem setPixv_hdr : s.setPixv.eng.hdr = s.eng.hdr := rfl
@[simp] theorem setPixv_file : s.setPixv.eng.file = s.eng.file := rfl
@[simp] theorem setPixv_pixv : s.setPixv.eng.pixv = true := rfl
@[simp] theorem setPixv_hdrv : s.setPixv.eng.hdrv = s.eng.hdrv := rfl
@[simp] theorem setPixv_filev : s.setPixv.eng.filev = s.eng.filev := rfl
@[simp] theorem setPixv_err : s.setPixv.eng.err = s.eng.err := rfl
@[simp] theorem setPixv_errinfo : s.setPixv.eng.errinfo = s.eng.errinfo := rfl
@[simp] theorem setPixv_env : s.setPixv.env = s.env := rfl
@[simp] theorem setPixv_script : s.setPixv.port.script = s.port.script := rfl
@[simp] theorem setPixv_port : s.setPixv.port = s.port := rfl
@[simp] theorem setPixv_config : s.setPixv.config = s.config := rfl
@[simp] theorem setPixv_freeCtr : s.setPixv.freeCtr = s.freeCtr := rfl

/-! ### setHdrv -/

@[simp] theorem setHdrv_width : s.setHdrv.eng.width = s.eng.width := rfl
@[simp] theorem setHdrv_height : s.setHdrv.eng.height = s.eng.height := rfl
@[simp] theorem setHdrv_bpr : s.setHdrv.eng.bpr = s.eng.bpr := rfl
@[simp] theorem setHdrv_pdlen : s.setHdrv.eng.pdlen = s.eng.pdlen := rfl
@[simp] theorem setHdrv_pix : s.setHdrv.eng.pix = s.eng.pix := rfl
@[simp] theorem setHdrv_hdr : s.setHdrv.eng.hdr = s.eng.hdr := rfl
@[simp] theorem setHdrv_file : s.setHdrv.eng.file = s.eng.file := rfl
@[simp] theorem setHdrv_pixv : s.setHdrv.eng.pixv = s.eng.pixv := rfl
@[simp] theorem setHdrv_hdrv : s.setHdrv.eng.hdrv = true := rfl
@[simp] theorem setHdrv_filev : s.setHdrv.eng.filev = s.eng.filev := rfl
@[simp] theorem setHdrv_err : s.setHdrv.eng.err = s.eng.err := rfl
@[simp] theorem setHdrv_errinfo : s.setHdrv.eng.errinfo = s.eng.errinfo := rfl
@[simp] theorem setHdrv_env : s.setHdrv.env = s.env := rfl
@[simp] theorem setHdrv_script : s.setHdrv.port.script = s.port.script := rfl
@[simp] theorem setHdrv_port : s.setHdrv.port = s.port := rfl
@[simp] theorem setHdrv_config : s.setHdrv.config = s.config := rfl
@[simp] theorem setHdrv_freeCtr : s.setHdrv.freeCtr = s.freeCtr := rfl

/-! ### setFilev -/

@[simp] theorem setFilev_width : s.setFilev.eng.width = s.eng.width := rfl
@[simp] theorem setFilev_height : s.setFilev.eng.height = s.eng.height := rfl
@[simp] theorem setFilev_bpr : s.setFilev.eng.bpr = s.eng.bpr := rfl
@[simp] theorem setFilev_pdlen : s.setFilev.eng.pdlen = s.eng.pdlen := rfl
@[simp] theorem setFilev_pix : s.setFilev.eng.pix = s.eng.pix := rfl
@[simp] theorem setFilev_hdr : s.setFilev.eng.hdr = s.eng.hdr := rfl
@[simp] theorem setFilev_file : s.setFilev.eng.file = s.eng.file := rfl
@[simp] theorem setFilev_pixv : s.setFilev.eng.pixv = s.eng.pixv := rfl
@[simp] theorem setFilev_hdrv : s.setFilev.eng.hdrv = s.eng.hdrv := rfl
@[simp] theorem setFilev_filev : s.setFilev.eng.filev = true := rfl
@[simp] theorem setFilev_err : s.setFilev.eng.err = s.eng.err := rfl
@[simp] theorem setFilev_errinfo : s.setFilev.eng.errinfo = s.eng.errinfo := rfl
@[simp] theorem setFilev_env : s.setFilev.env = s.env := rfl
@[simp] theorem setFilev_script : s.setFilev.port.script = s.port.script := rfl
@[simp] theorem setFilev_port : s.setFilev.port = s.port := rfl
@[simp] theorem setFilev_config : s.setFilev.config = s.config := rfl
@[simp] theorem setFilev_freeCtr : s.setFilev.freeCtr = s.freeCtr := rfl

/-! ### latch -/

@[simp] theorem latch_width (w h bpr n : Nat) : (s.latch w h bpr n).eng.width = toWord w := rfl
@[simp] theorem latch_height (w h bpr n : Nat) : (s.latch w h bpr n).eng.height = toWord h := rfl
@[simp] theorem latch_bpr (w h bpr n : Nat) : (s.latch w h bpr n).eng.bpr = toWord bpr := rfl
@[simp] theorem latch_pdlen (w h bpr n : Nat) : (s.latch w h bpr n).eng.pdlen = toWord n := rfl
@[simp] theorem latch_pix (w h bpr n : Nat) : (s.latch w h bpr n).eng.pix = s.eng.pix := rfl
@[simp] theorem latch_hdr (w h bpr n : Nat) : (s.latch w h bpr n).eng.hdr = s.eng.hdr := rfl
@[simp] theorem latch_file (w h bpr n : Nat) : (s.latch w h bpr n).eng.file = s.eng.file := rfl
@[simp] theorem latch_pixv (w h bpr n : Nat) : (s.latch w h bpr n).eng.pixv = s.eng.pixv := rfl
@[simp] theorem latch_hdrv (w h bpr n : Nat) : (s.latch w h bpr n).eng.hdrv = s.eng.hdrv := rfl
@[simp] theorem latch_filev (w h bpr n : Nat) : (s.latch w h bpr n).eng.filev = s.eng.filev := rfl
@[simp] theorem latch_err (w h bpr n : Nat) : (s.latch w h bpr n).eng.err = s.eng.err := rfl
@[simp] theorem latch_errinfo (w h bpr n : Nat) : (s.latch w h bpr n).eng.errinfo = s.eng.errinfo := rfl
@[simp] theorem latch_env (w h bpr n : Nat) : (s.latch w h bpr n).env = s.env := rfl
@[simp] theorem latch_script (w h bpr n : Nat) : (s.latch w h bpr n).port.script = s.port.script := rfl
@[simp] theorem latch_port (w h bpr n : Nat) : (s.latch w h bpr n).port = s.port := rfl
@[simp] theorem latch_config (w h bpr n : Nat) : (s.latch w h bpr n).config = s.config := rfl
@[simp] theorem latch_freeCtr (w h bpr n : Nat) : (s.latch w h bpr n).freeCtr = s.freeCtr := rfl

/-! ### setPix -/

@[simp] theorem setPix_width (v : List Byte) : (s.setSpace .pix v).eng.width = s.eng.width := rfl
@[simp] theorem setPix_height (v : List Byte) : (s.setSpace .pix v).eng.height = s.eng.height := rfl
@[simp] theorem setPix_bpr (v : List Byte) : (s.setSpace .pix v).eng.bpr = s.eng.bpr := rfl
@[simp] theorem setPix_pdlen (v : List Byte) : (s.setSpace .pix v).eng.pdlen = s.eng.pdlen := rfl
@[simp] theorem setPix_pix (v : List Byte) : (s.setSpace .pix v).eng.pix = v := rfl
@[simp] theorem setPix_hdr (v : List Byte) : (s.setSpace .pix v).eng.hdr = s.eng.hdr := rfl
@[simp] theorem setPix_file (v : List Byte) : (s.setSpace .pix v).eng.file = s.eng.file := rfl
@[simp] theorem setPix_pixv (v : List Byte) : (s.setSpace .pix v).eng.pixv = s.eng.pixv := rfl
@[simp] theorem setPix_hdrv (v : List Byte) : (s.setSpace .pix v).eng.hdrv = s.eng.hdrv := rfl
@[simp] theorem setPix_filev (v : List Byte) : (s.setSpace .pix v).eng.filev = s.eng.filev := rfl
@[simp] theorem setPix_err (v : List Byte) : (s.setSpace .pix v).eng.err = s.eng.err := rfl
@[simp] theorem setPix_errinfo (v : List Byte) : (s.setSpace .pix v).eng.errinfo = s.eng.errinfo := rfl
@[simp] theorem setPix_env (v : List Byte) : (s.setSpace .pix v).env = s.env := rfl
@[simp] theorem setPix_script (v : List Byte) : (s.setSpace .pix v).port.script = s.port.script := rfl
@[simp] theorem setPix_port (v : List Byte) : (s.setSpace .pix v).port = s.port := rfl
@[simp] theorem setPix_config (v : List Byte) : (s.setSpace .pix v).config = s.config := rfl
@[simp] theorem setPix_freeCtr (v : List Byte) : (s.setSpace .pix v).freeCtr = s.freeCtr := rfl

/-! ### setHdr -/

@[simp] theorem setHdr_width (v : List Byte) : (s.setSpace .hdr v).eng.width = s.eng.width := rfl
@[simp] theorem setHdr_height (v : List Byte) : (s.setSpace .hdr v).eng.height = s.eng.height := rfl
@[simp] theorem setHdr_bpr (v : List Byte) : (s.setSpace .hdr v).eng.bpr = s.eng.bpr := rfl
@[simp] theorem setHdr_pdlen (v : List Byte) : (s.setSpace .hdr v).eng.pdlen = s.eng.pdlen := rfl
@[simp] theorem setHdr_pix (v : List Byte) : (s.setSpace .hdr v).eng.pix = s.eng.pix := rfl
@[simp] theorem setHdr_hdr (v : List Byte) : (s.setSpace .hdr v).eng.hdr = v := rfl
@[simp] theorem setHdr_file (v : List Byte) : (s.setSpace .hdr v).eng.file = s.eng.file := rfl
@[simp] theorem setHdr_pixv (v : List Byte) : (s.setSpace .hdr v).eng.pixv = s.eng.pixv := rfl
@[simp] theorem setHdr_hdrv (v : List Byte) : (s.setSpace .hdr v).eng.hdrv = s.eng.hdrv := rfl
@[simp] theorem setHdr_filev (v : List Byte) : (s.setSpace .hdr v).eng.filev = s.eng.filev := rfl
@[simp] theorem setHdr_err (v : List Byte) : (s.setSpace .hdr v).eng.err = s.eng.err := rfl
@[simp] theorem setHdr_errinfo (v : List Byte) : (s.setSpace .hdr v).eng.errinfo = s.eng.errinfo := rfl
@[simp] theorem setHdr_env (v : List Byte) : (s.setSpace .hdr v).env = s.env := rfl
@[simp] theorem setHdr_script (v : List Byte) : (s.setSpace .hdr v).port.script = s.port.script := rfl
@[simp] theorem setHdr_port (v : List Byte) : (s.setSpace .hdr v).port = s.port := rfl
@[simp] theorem setHdr_config (v : List Byte) : (s.setSpace .hdr v).config = s.config := rfl
@[simp] theorem setHdr_freeCtr (v : List Byte) : (s.setSpace .hdr v).freeCtr = s.freeCtr := rfl

/-! ### setFile -/

@[simp] theorem setFile_width (v : List Byte) : (s.setSpace .file v).eng.width = s.eng.width := rfl
@[simp] theorem setFile_height (v : List Byte) : (s.setSpace .file v).eng.height = s.eng.height := rfl
@[simp] theorem setFile_bpr (v : List Byte) : (s.setSpace .file v).eng.bpr = s.eng.bpr := rfl
@[simp] theorem setFile_pdlen (v : List Byte) : (s.setSpace .file v).eng.pdlen = s.eng.pdlen := rfl
@[simp] theorem setFile_pix (v : List Byte) : (s.setSpace .file v).eng.pix = s.eng.pix := rfl
@[simp] theorem setFile_hdr (v : List Byte) : (s.setSpace .file v).eng.hdr = s.eng.hdr := rfl
@[simp] theorem setFile_file (v : List Byte) : (s.setSpace .file v).eng.file = v := rfl
@[simp] theorem setFile_pixv (v : List Byte) : (s.setSpace .file v).eng.pixv = s.eng.pixv := rfl
@[simp] theorem setFile_hdrv (v : List Byte) : (s.setSpace .file v).eng.hdrv = s.eng.hdrv := rfl
@[simp] theorem setFile_filev (v : List Byte) : (s.setSpace .file v).eng.filev = s.eng.filev := rfl
@[simp] theorem setFile_err (v : List Byte) : (s.setSpace .file v).eng.err = s.eng.err := rfl
@[simp] theorem setFile_errinfo (v : List Byte) : (s.setSpace .file v).eng.errinfo = s.eng.errinfo := rfl
@[simp] theorem setFile_env (v : List Byte) : (s.setSpace .file v).env = s.env := rfl
@[simp] theorem setFile_script (v : List Byte) : (s.setSpace .file v).port.script = s.port.script := rfl
@[simp] theorem setFile_port (v : List Byte) : (s.setSpace .file v).port = s.port := rfl
@[simp] theorem setFile_config (v : List Byte) : (s.setSpace .file v).config = s.config := rfl
@[simp] theorem setFile_freeCtr (v : List Byte) : (s.setSpace .file v).freeCtr = s.freeCtr := rfl

/-! ### respond -/

@[simp] theorem respond_width (code : Byte) (info : Info) (data : List Byte) : (s.respond code info data).eng.width = s.eng.width := rfl
@[simp] theorem respond_height (code : Byte) (info : Info) (data : List Byte) : (s.respond code info data).eng.height = s.eng.height := rfl
@[simp] theorem respond_bpr (code : Byte) (info : Info) (data : List Byte) : (s.respond code info data).eng.bpr = s.eng.bpr := rfl
@[simp] theorem respond_pdlen (code : Byte) (info : Info) (data : List Byte) : (s.respond code info data).eng.pdlen = s.eng.pdlen := rfl
@[simp] theorem respond_pix (code : Byte) (info : Info) (data : List Byte) : (s.respond code info data).eng.pix = s.eng.pix := rfl
@[simp] theorem respond_hdr (code : Byte) (info : Info) (data : List Byte) : (s.respond code info data).eng.hdr = s.eng.hdr := rfl
@[simp] theorem respond_file (code : Byte) (info : Info) (data : List Byte) : (s.respond code info data).eng.file = s.eng.file := rfl
@[simp] theorem respond_pixv (code : Byte) (info : Info) (data : List Byte) : (s.respond code info data).eng.pixv = s.eng.pixv := rfl
@[simp] theorem respond_hdrv (code : Byte) (info : Info) (data : List Byte) : (s.respond code info data).eng.hdrv = s.eng.hdrv := rfl
@[simp] theorem respond_filev (code : Byte) (info : Info) (data : List Byte) : (s.respond code info data).eng.filev = s.eng.filev := rfl
@[simp] theorem respond_err (code : Byte) (info : Info) (data : List Byte) : (s.respond code info data).eng.err = code := rfl
@[simp] theorem respond_errinfo (code : Byte) (info : Info) (data : List Byte) : (s.respond code info data).eng.errinfo = info := rfl
@[simp] theorem respond_env (code : Byte) (info : Info) (data : List Byte) : (s.respond code info data).env = s.env := rfl
@[simp] theorem respond_script (code : Byte) (info : Info) (data : List Byte) : (s.respond code info data).port.script = s.port.script := rfl
@[simp] theorem respond_responses (code : Byte) (info : Info) (data : List Byte) :
    (s.respond code info data).port.responses = s.port.responses ++ [{ code := code, info := info, data := data }] := rfl
@[simp] theorem respond_config (code : Byte) (info : Info) (data : List Byte) : (s.respond code info data).config = s.config := rfl
@[simp] theorem respond_freeCtr (code : Byte) (info : Info) (data : List Byte) : (s.respond code info data).freeCtr = s.freeCtr := rfl

/-! ### unspecify -/

@[simp] theorem unspecify_width : s.unspecify.eng.width = Config.openWord s.freeCtr s.eng.width := rfl
@[simp] theorem unspecify_height : s.unspecify.eng.height = Config.openWord (s.freeCtr + 1) s.eng.height := rfl
@[simp] theorem unspecify_bpr : s.unspecify.eng.bpr = Config.openWord (s.freeCtr + 2) s.eng.bpr := rfl
@[simp] theorem unspecify_pdlen : s.unspecify.eng.pdlen = Config.openWord (s.freeCtr + 3) s.eng.pdlen := rfl
@[simp] theorem unspecify_pix : s.unspecify.eng.pix = Config.openBytes s.freeCtr s.eng.pix := rfl
@[simp] theorem unspecify_hdr : s.unspecify.eng.hdr = (Config.openHeader s.freeCtr s.eng.hdr).toList := rfl
@[simp] theorem unspecify_file : s.unspecify.eng.file = Config.openBytes (s.freeCtr + 1) s.eng.file := rfl
@[simp] theorem unspecify_pixv : s.unspecify.eng.pixv = s.eng.pixv := rfl
@[simp] theorem unspecify_hdrv : s.unspecify.eng.hdrv = s.eng.hdrv := rfl
@[simp] theorem unspecify_filev : s.unspecify.eng.filev = s.eng.filev := rfl
@[simp] theorem unspecify_err : s.unspecify.eng.err = s.eng.err := rfl
@[simp] theorem unspecify_errinfo : s.unspecify.eng.errinfo = s.eng.errinfo := rfl
@[simp] theorem unspecify_env : s.unspecify.env = s.env := rfl
@[simp] theorem unspecify_script : s.unspecify.port.script = s.port.script := rfl
@[simp] theorem unspecify_port : s.unspecify.port = s.port := rfl
@[simp] theorem unspecify_config : s.unspecify.config = s.config := rfl
@[simp] theorem unspecify_freeCtr : s.unspecify.freeCtr = s.freeCtr + 4 := rfl

/-! ### setSink_named -/

@[simp] theorem setSink_named_eng (p : Path) (v : Sink) : (s.setSink (.named p) v).eng = s.eng := rfl
@[simp] theorem setSink_named_matrix (p : Path) (v : Sink) : (s.setSink (.named p) v).env.matrix = s.env.matrix := rfl
@[simp] theorem setSink_named_path (p : Path) (v : Sink) : (s.setSink (.named p) v).env.path = s.env.path := rfl
@[simp] theorem setSink_named_stream (p : Path) (v : Sink) : (s.setSink (.named p) v).env.stream = s.env.stream := rfl
@[simp] theorem setSink_named_named (p : Path) (v : Sink) : (s.setSink (.named p) v).env.named = updateSink p.id v s.env.named := rfl
@[simp] theorem setSink_named_choices (p : Path) (v : Sink) : (s.setSink (.named p) v).env.choices = s.env.choices := rfl
@[simp] theorem setSink_named_port (p : Path) (v : Sink) : (s.setSink (.named p) v).port = s.port := rfl
@[simp] theorem setSink_named_config (p : Path) (v : Sink) : (s.setSink (.named p) v).config = s.config := rfl
@[simp] theorem setSink_named_freeCtr (p : Path) (v : Sink) : (s.setSink (.named p) v).freeCtr = s.freeCtr := rfl

/-! ### setSink_stream -/

@[simp] theorem setSink_stream_eng (v : Sink) : (s.setSink .stream v).eng = s.eng := rfl
@[simp] theorem setSink_stream_matrix (v : Sink) : (s.setSink .stream v).env.matrix = s.env.matrix := rfl
@[simp] theorem setSink_stream_path (v : Sink) : (s.setSink .stream v).env.path = s.env.path := rfl
@[simp] theorem setSink_stream_stream (v : Sink) : (s.setSink .stream v).env.stream = v := rfl
@[simp] theorem setSink_stream_named (v : Sink) : (s.setSink .stream v).env.named = s.env.named := rfl
@[simp] theorem setSink_stream_choices (v : Sink) : (s.setSink .stream v).env.choices = s.env.choices := rfl
@[simp] theorem setSink_stream_port (v : Sink) : (s.setSink .stream v).port = s.port := rfl
@[simp] theorem setSink_stream_config (v : Sink) : (s.setSink .stream v).config = s.config := rfl
@[simp] theorem setSink_stream_freeCtr (v : Sink) : (s.setSink .stream v).freeCtr = s.freeCtr := rfl

/-! ### presentMatrix -/

@[simp] theorem presentMatrix_eng (m : Matrix) : (presentMatrix m s).eng = s.eng := rfl
@[simp] theorem presentMatrix_matrix (m : Matrix) : (presentMatrix m s).env.matrix = m := rfl
@[simp] theorem presentMatrix_path (m : Matrix) : (presentMatrix m s).env.path = s.env.path := rfl
@[simp] theorem presentMatrix_stream (m : Matrix) : (presentMatrix m s).env.stream = s.env.stream := rfl
@[simp] theorem presentMatrix_named (m : Matrix) : (presentMatrix m s).env.named = s.env.named := rfl
@[simp] theorem presentMatrix_choices (m : Matrix) : (presentMatrix m s).env.choices = s.env.choices := rfl
@[simp] theorem presentMatrix_port (m : Matrix) : (presentMatrix m s).port = s.port := rfl
@[simp] theorem presentMatrix_config (m : Matrix) : (presentMatrix m s).config = s.config := rfl
@[simp] theorem presentMatrix_freeCtr (m : Matrix) : (presentMatrix m s).freeCtr = s.freeCtr := rfl

/-! ### holdPath -/

@[simp] theorem holdPath_eng (p : Path) : (holdPath p s).eng = s.eng := rfl
@[simp] theorem holdPath_matrix (p : Path) : (holdPath p s).env.matrix = s.env.matrix := rfl
@[simp] theorem holdPath_path (p : Path) : (holdPath p s).env.path = p := rfl
@[simp] theorem holdPath_stream (p : Path) : (holdPath p s).env.stream = s.env.stream := rfl
@[simp] theorem holdPath_named (p : Path) : (holdPath p s).env.named = s.env.named := rfl
@[simp] theorem holdPath_choices (p : Path) : (holdPath p s).env.choices = s.env.choices := rfl
@[simp] theorem holdPath_port (p : Path) : (holdPath p s).port = s.port := rfl
@[simp] theorem holdPath_config (p : Path) : (holdPath p s).config = s.config := rfl
@[simp] theorem holdPath_freeCtr (p : Path) : (holdPath p s).freeCtr = s.freeCtr := rfl

/-! ### supplyChoices -/

@[simp] theorem supplyChoices_eng (cs : List SinkChoice) : (supplyChoices cs s).eng = s.eng := rfl
@[simp] theorem supplyChoices_matrix (cs : List SinkChoice) : (supplyChoices cs s).env.matrix = s.env.matrix := rfl
@[simp] theorem supplyChoices_path (cs : List SinkChoice) : (supplyChoices cs s).env.path = s.env.path := rfl
@[simp] theorem supplyChoices_stream (cs : List SinkChoice) : (supplyChoices cs s).env.stream = s.env.stream := rfl
@[simp] theorem supplyChoices_named (cs : List SinkChoice) : (supplyChoices cs s).env.named = s.env.named := rfl
@[simp] theorem supplyChoices_choices (cs : List SinkChoice) : (supplyChoices cs s).env.choices = s.env.choices ++ cs := rfl
@[simp] theorem supplyChoices_port (cs : List SinkChoice) : (supplyChoices cs s).port = s.port := rfl
@[simp] theorem supplyChoices_config (cs : List SinkChoice) : (supplyChoices cs s).config = s.config := rfl
@[simp] theorem supplyChoices_freeCtr (cs : List SinkChoice) : (supplyChoices cs s).freeCtr = s.freeCtr := rfl

/-! ### popScript -/

@[simp] theorem popScript_eng (rest : List HostEvent) : (popScript rest s).eng = s.eng := rfl
@[simp] theorem popScript_env (rest : List HostEvent) : (popScript rest s).env = s.env := rfl
@[simp] theorem popScript_script (rest : List HostEvent) : (popScript rest s).port.script = rest := rfl
@[simp] theorem popScript_responses (rest : List HostEvent) : (popScript rest s).port.responses = s.port.responses := rfl
@[simp] theorem popScript_config (rest : List HostEvent) : (popScript rest s).config = s.config := rfl
@[simp] theorem popScript_freeCtr (rest : List HostEvent) : (popScript rest s).freeCtr = s.freeCtr := rfl

/-! ### pushEvent -/

@[simp] theorem pushEvent_eng (e : HostEvent) : (pushEvent e s).eng = s.eng := rfl
@[simp] theorem pushEvent_env (e : HostEvent) : (pushEvent e s).env = s.env := rfl
@[simp] theorem pushEvent_script (e : HostEvent) : (pushEvent e s).port.script = e :: s.port.script := rfl
@[simp] theorem pushEvent_responses (e : HostEvent) : (pushEvent e s).port.responses = s.port.responses := rfl
@[simp] theorem pushEvent_config (e : HostEvent) : (pushEvent e s).config = s.config := rfl
@[simp] theorem pushEvent_freeCtr (e : HostEvent) : (pushEvent e s).freeCtr = s.freeCtr := rfl

/-! ### The spaces -/

@[simp] theorem space_pix : s.space .pix = s.eng.pix := rfl
@[simp] theorem space_hdr : s.space .hdr = s.eng.hdr := rfl
@[simp] theorem space_file : s.space .file = s.eng.file := rfl

@[simp] theorem setSpace_space (sp : Space) (v : List Byte) : (s.setSpace sp v).space sp = v := by cases sp <;> rfl
@[simp] theorem setSpace_env (sp : Space) (v : List Byte) : (s.setSpace sp v).env = s.env := by cases sp <;> rfl
@[simp] theorem setSpace_port (sp : Space) (v : List Byte) : (s.setSpace sp v).port = s.port := by cases sp <;> rfl
@[simp] theorem setSpace_config (sp : Space) (v : List Byte) : (s.setSpace sp v).config = s.config := by cases sp <;> rfl
@[simp] theorem setSpace_setSpace (sp : Space) (v w : List Byte) : (s.setSpace sp v).setSpace sp w = s.setSpace sp w := by
  cases sp <;> rfl

/-- The spaces are disjoint: a write to one never changes another (R52). -/
theorem setSpace_space_of_ne {sp sp' : Space} (h : sp' ≠ sp) (v : List Byte) : (s.setSpace sp v).space sp' = s.space sp' := by
  cases sp <;> cases sp' <;> first | rfl | exact absurd rfl h

/-! ### Sink objects -/

@[simp] theorem setSink_eng (ref : SinkRef) (v : Sink) : (s.setSink ref v).eng = s.eng := by cases ref <;> rfl
@[simp] theorem setSink_port (ref : SinkRef) (v : Sink) : (s.setSink ref v).port = s.port := by cases ref <;> rfl
@[simp] theorem setSink_config (ref : SinkRef) (v : Sink) : (s.setSink ref v).config = s.config := by cases ref <;> rfl
@[simp] theorem setSink_freeCtr (ref : SinkRef) (v : Sink) : (s.setSink ref v).freeCtr = s.freeCtr := by cases ref <;> rfl
@[simp] theorem setSink_matrix (ref : SinkRef) (v : Sink) : (s.setSink ref v).env.matrix = s.env.matrix := by cases ref <;> rfl
@[simp] theorem setSink_path (ref : SinkRef) (v : Sink) : (s.setSink ref v).env.path = s.env.path := by cases ref <;> rfl
@[simp] theorem setSink_choices (ref : SinkRef) (v : Sink) : (s.setSink ref v).env.choices = s.env.choices := by cases ref <;> rfl

/-! ### The end of a stage -/

@[simp] theorem finish_done (data : List Byte) : (Stage.done s data).finish = .next (s.respond okCode (.word 0) data) := rfl
@[simp] theorem finish_raised (e : EngineError) : (Stage.raised e s).finish = .next (takeError e s) := rfl
@[simp] theorem finish_stop (f : Fault) : (Stage.stop f).finish = .fault f := rfl
@[simp] theorem andThen_done (data : List Byte) (rest : State → Stage) : (Stage.done s data).andThen rest = rest s := rfl
@[simp] theorem andThen_raised (e : EngineError) (rest : State → Stage) : (Stage.raised e s).andThen rest = .raised e s := rfl
@[simp] theorem andThen_stop (f : Fault) (rest : State → Stage) : (Stage.stop f).andThen rest = .stop f := rfl
@[simp] theorem ofExcept_ok {α : Type} (a : α) (rest : α → Stage) : Stage.ofExcept (.ok a) rest = rest a := rfl
@[simp] theorem ofExcept_error {α : Type} (f : Fault) (rest : α → Stage) : Stage.ofExcept (.error f) rest = .stop f := rfl
@[simp] theorem needs_held (i : Instr) (rest : State → Stage) : needs true i s rest = rest s := rfl
@[simp] theorem needs_not_held (i : Instr) (rest : State → Stage) :
    needs false i s rest = .raised (.sequenceError (encodeCode i)) s := rfl

end Sys2Proof.Machine
end

