-- ==== Sys2Proof/Laws/Ops.lean ====
section
/-! SUPPORT. One lemma for each shared operation that says everything it can do: the accesses to the byte spaces, the sinks and
their list, the sink primitives, and the ends of a command. -/

namespace Sys2Proof.Machine

/-! ## The byte spaces -/

theorem memRead_ok {sp : Space} {addr n : Nat} {s : State} {v : List Byte} (h : memRead sp addr n s = .ok v) :
    addr + n ≤ (s.space sp).length ∧ v = ((s.space sp).drop addr).take n := by
  unfold memRead at h
  split at h
  · exact ⟨‹_›, by simpa using h.symm⟩
  · cases h

theorem memRead_of_le {sp : Space} {addr n : Nat} {s : State} (h : addr + n ≤ (s.space sp).length) :
    memRead sp addr n s = .ok (((s.space sp).drop addr).take n) := by
  simp [memRead, h]

/-- A read from offset 0 over the whole length of a space gives the space. -/
theorem memRead_all {sp : Space} {n : Nat} {s : State} (h : (s.space sp).length = n) :
    memRead sp 0 n s = .ok (s.space sp) := by
  rw [memRead_of_le (by omega)]
  simp [← h]

theorem memWrite_ok {sp : Space} {addr n : Nat} {v : List Byte} {s t : State} (h : memWrite sp addr n v s = .ok t) :
    addr + n ≤ (s.space sp).length ∧ v.length = n ∧
      t = s.setSpace sp ((s.space sp).take addr ++ v ++ (s.space sp).drop (addr + n)) := by
  unfold memWrite at h
  split at h
  · exact ⟨‹_ ∧ _›.1, ‹_ ∧ _›.2, by simpa using h.symm⟩
  · cases h

theorem memWrite_of_le {sp : Space} {addr n : Nat} {v : List Byte} {s : State} (h : addr + n ≤ (s.space sp).length)
    (hv : v.length = n) :
    memWrite sp addr n v s = .ok (s.setSpace sp ((s.space sp).take addr ++ v ++ (s.space sp).drop (addr + n))) := by
  simp [memWrite, h, hv]

/-- A write keeps the length of the space (R52). -/
theorem memWrite_length {sp : Space} {addr n : Nat} {v : List Byte} {s t : State} (h : memWrite sp addr n v s = .ok t) :
    (t.space sp).length = (s.space sp).length := by
  obtain ⟨h1, h2, rfl⟩ := memWrite_ok h
  simp
  omega

/-- A byte outside the stored ones reads as before. -/
theorem memWrite_read_outside {sp : Space} {addr n a : Nat} {v : List Byte} {s t : State}
    (h : memWrite sp addr n v s = .ok t) (ha : a < addr ∨ addr + n ≤ a) : readByte sp a t = readByte sp a s := by
  obtain ⟨h1, h2, rfl⟩ := memWrite_ok h
  simp only [readByte, setSpace_space]
  rcases ha with ha | ha
  · rw [List.append_assoc, List.getElem?_append_left (by simp; omega), List.getElem?_take_of_lt ha]
  · rw [List.getElem?_append_right (by simp; omega), List.getElem?_drop]
    congr 1
    simp
    omega

/-- A stored byte reads as it was stored. -/
theorem memWrite_read_inside {sp : Space} {addr n i : Nat} {v : List Byte} {s t : State}
    (h : memWrite sp addr n v s = .ok t) (hi : i < n) : readByte sp (addr + i) t = v[i]? := by
  obtain ⟨h1, h2, rfl⟩ := memWrite_ok h
  simp only [readByte, setSpace_space]
  rw [List.append_assoc, List.getElem?_append_right (by simp), List.getElem?_append_left (by simp; omega)]
  congr 1
  simp
  omega

/-! ## The list of named sinks -/

theorem lookupSink_of_lt {n : Nat} {l : List (Nat × Sink)} (h : ∀ e ∈ l, n < e.1) : lookupSink n l = Sink.unlisted := by
  induction l with
  | nil => rfl
  | cons e rest ih =>
    have h1 := h e (by simp)
    simp only [lookupSink]
    rw [if_neg (by omega), ih fun e' he' => h e' (by simp [he'])]

theorem lookup_consSink (n : Nat) (v : Sink) {rest : List (Nat × Sink)} (h : ∀ e ∈ rest, n < e.1) (m : Nat) :
    lookupSink m (consSink n v rest) = if m = n then v else lookupSink m rest := by
  unfold consSink
  split
  · rename_i hv
    split
    · rename_i hm
      rw [hm, lookupSink_of_lt h, hv]
    · rfl
  · rfl

/-- Reading the sinks after an update: the updated name has the new value, every other its old one. -/
theorem lookup_updateSink (n : Nat) (v : Sink) {l : List (Nat × Sink)} (h : l.Pairwise fun a b => a.1 < b.1) (m : Nat) :
    lookupSink m (updateSink n v l) = if m = n then v else lookupSink m l := by
  induction l with
  | nil => simpa [updateSink] using lookup_consSink n v (rest := []) (by simp) m
  | cons e rest ih =>
    obtain ⟨k, x⟩ := e
    obtain ⟨h1, h2⟩ := List.pairwise_cons.mp h
    simp only [updateSink]
    split
    · rename_i hn
      refine lookup_consSink n v ?_ m
      intro e he
      rcases List.mem_cons.mp he with rfl | he
      · exact hn
      · exact Nat.lt_trans hn (h1 e he)
    · split
      · rename_i hn
        subst hn
        rw [lookup_consSink n v h1 m]
        split
        · rfl
        · simp [lookupSink, *]
      · simp only [lookupSink]
        split
        · rw [if_neg (by omega)]
        · rw [ih h2]

theorem mem_consSink {n : Nat} {v : Sink} {rest : List (Nat × Sink)} {e : Nat × Sink} (h : e ∈ consSink n v rest) :
    (e = (n, v) ∧ v ≠ Sink.unlisted) ∨ e ∈ rest := by
  unfold consSink at h
  split at h
  · exact .inr h
  · rcases List.mem_cons.mp h with h | h
    · exact .inl ⟨h, ‹_›⟩
    · exact .inr h

theorem mem_updateSink {n : Nat} {v : Sink} {l : List (Nat × Sink)} {e : Nat × Sink} (h : e ∈ updateSink n v l) :
    (e = (n, v) ∧ v ≠ Sink.unlisted) ∨ e ∈ l := by
  induction l with
  | nil => exact mem_consSink h
  | cons x rest ih =>
    obtain ⟨k, x⟩ := x
    simp only [updateSink] at h
    split at h
    · exact mem_consSink h
    · split at h
      · rcases mem_consSink h with h | h
        · exact .inl h
        · exact .inr (by simp [h])
      · rcases List.mem_cons.mp h with rfl | h
        · exact .inr (by simp)
        · rcases ih h with h | h
          · exact .inl h
          · exact .inr (by simp [h])

theorem pairwise_consSink {n : Nat} {v : Sink} {rest : List (Nat × Sink)} (h : ∀ e ∈ rest, n < e.1)
    (hr : rest.Pairwise fun a b => a.1 < b.1) : (consSink n v rest).Pairwise fun a b => a.1 < b.1 := by
  unfold consSink
  split
  · exact hr
  · exact List.pairwise_cons.mpr ⟨h, hr⟩

/-- An update keeps the names rising. -/
theorem pairwise_updateSink {n : Nat} {v : Sink} {l : List (Nat × Sink)} (h : l.Pairwise fun a b => a.1 < b.1) :
    (updateSink n v l).Pairwise fun a b => a.1 < b.1 := by
  induction l with
  | nil => exact pairwise_consSink (by simp) h
  | cons e rest ih =>
    obtain ⟨k, x⟩ := e
    obtain ⟨h1, h2⟩ := List.pairwise_cons.mp h
    simp only [updateSink]
    split
    · rename_i hn
      refine pairwise_consSink ?_ h
      intro e he
      rcases List.mem_cons.mp he with rfl | he
      · exact hn
      · exact Nat.lt_trans hn (h1 e he)
    · split
      · rename_i hn
        subst hn
        exact pairwise_consSink h1 h2
      · rename_i hn hn'
        refine List.pairwise_cons.mpr ⟨?_, ih h2⟩
        intro e he
        rcases mem_updateSink he with ⟨rfl, -⟩ | he
        · change k < n
          omega
        · exact h1 e he

/-- Every update of a sink keeps the form of the lists. -/
theorem setSink_wf {s : State} (ref : SinkRef) (v : Sink) (h : Memory.wf s) : Memory.wf (s.setSink ref v) := by
  obtain ⟨h1, h2, h3⟩ := h
  cases ref with
  | stream => exact ⟨h1, h2, h3⟩
  | named p =>
    refine ⟨h1, pairwise_updateSink h2, ?_⟩
    intro e he
    rcases mem_updateSink he with ⟨rfl, hv⟩ | he
    · exact hv
    · exact h3 e he

/-- Reading a sink object after an update of one. -/
theorem sink_setSink {s : State} (h : Memory.wf s) (ref ref' : SinkRef) (v : Sink) :
    (s.setSink ref v).sink ref' = if ref' = ref then v else s.sink ref' := by
  cases ref with
  | stream => cases ref' <;> simp [State.setSink, State.sink]
  | named p =>
    cases ref' with
    | stream => simp [State.setSink, State.sink]
    | named q =>
      obtain ⟨p⟩ := p
      obtain ⟨q⟩ := q
      simp [State.setSink, State.sink, lookup_updateSink p v h.2.1 q]

/-- A write to a space keeps the form of the lists. -/
theorem memWrite_wf {sp : Space} {addr n : Nat} {v : List Byte} {s t : State} (h : memWrite sp addr n v s = .ok t)
    (hs : Memory.wf s) : Memory.wf t := by
  have hl := memWrite_length h
  obtain ⟨-, -, rfl⟩ := memWrite_ok h
  refine ⟨?_, by simpa using hs.2⟩
  cases sp
  · exact hs.1
  · exact hl.trans hs.1
  · exact hs.1

/-! ## The sink primitives -/

/-- What a sink call does apart from the sink it addresses: it uses up one choice, or one free value. -/
structure CallFrame (s t : State) : Prop where
  eng : t.eng = s.eng
  port : t.port = s.port
  config : t.config = s.config
  matrix : t.env.matrix = s.env.matrix
  path : t.env.path = s.env.path

theorem CallFrame.rfl {s : State} : CallFrame s s := ⟨.refl _, .refl _, .refl _, .refl _, .refl _⟩

theorem CallFrame.trans {s t u : State} (h : CallFrame s t) (h' : CallFrame t u) : CallFrame s u :=
  ⟨h'.eng.trans h.eng, h'.port.trans h.port, h'.config.trans h.config, h'.matrix.trans h.matrix, h'.path.trans h.path⟩

theorem setSink_callFrame (s : State) (ref : SinkRef) (v : Sink) : CallFrame s (s.setSink ref v) :=
  ⟨by simp, by simp, by simp, by simp, by simp⟩

/-- A sink call takes the first choice the host supplied. -/
theorem takeChoice_supplied {s : State} {c : SinkChoice} {cs : List SinkChoice} (h : s.env.choices = c :: cs) :
    takeChoice s = (c, { s with env := { s.env with choices := cs } }) := by
  simp [takeChoice, h]

theorem takeChoice_callFrame (s : State) : CallFrame s (takeChoice s).2 := by
  unfold takeChoice
  split <;> exact ⟨rfl, rfl, rfl, rfl, rfl⟩

@[simp] theorem takeChoice_sink (s : State) (ref : SinkRef) : (takeChoice s).2.sink ref = s.sink ref := by
  unfold takeChoice
  split <;> cases ref <;> rfl

@[simp] theorem takeChoice_named (s : State) : (takeChoice s).2.env.named = s.env.named := by
  unfold takeChoice
  split <;> rfl

theorem takeChoice_wf {s : State} (h : Memory.wf s) : Memory.wf (takeChoice s).2 := by
  unfold takeChoice
  split <;> exact h

theorem sinkOpen_callFrame (p : Path) (s : State) : CallFrame s (sinkOpen p s).2 := by
  unfold sinkOpen
  dsimp only
  split
  · exact (takeChoice_callFrame s).trans (setSink_callFrame (takeChoice s).2 (.named p) _)
  · exact takeChoice_callFrame s

theorem sinkWrite_callFrame (ref : SinkRef) (b : List Byte) (s : State) : CallFrame s (sinkWrite ref b s).2 := by
  unfold sinkWrite
  dsimp only
  split
  · split
    · exact (takeChoice_callFrame s).trans (setSink_callFrame _ _ _)
    · exact (takeChoice_callFrame s).trans (setSink_callFrame _ _ _)
  · exact takeChoice_callFrame s

theorem sinkClose_callFrame (ref : SinkRef) (s : State) : CallFrame s (sinkClose ref s).2 := by
  unfold sinkClose
  dsimp only
  split <;> exact (takeChoice_callFrame s).trans (setSink_callFrame _ _ _)

theorem sinkOpen_wf {p : Path} {s : State} (h : Memory.wf s) : Memory.wf (sinkOpen p s).2 := by
  unfold sinkOpen
  dsimp only
  split
  · exact setSink_wf _ _ (takeChoice_wf h)
  · exact takeChoice_wf h

theorem sinkWrite_wf {ref : SinkRef} {b : List Byte} {s : State} (h : Memory.wf s) : Memory.wf (sinkWrite ref b s).2 := by
  unfold sinkWrite
  dsimp only
  split
  · split <;> exact setSink_wf _ _ (takeChoice_wf h)
  · exact takeChoice_wf h

theorem sinkClose_wf {ref : SinkRef} {s : State} (h : Memory.wf s) : Memory.wf (sinkClose ref s).2 := by
  unfold sinkClose
  dsimp only
  split <;> exact setSink_wf _ _ (takeChoice_wf h)

/-- Everything `SinkOpen` can do (R32). -/
theorem sinkOpen_cases {p : Path} {s : State} (h : Memory.wf s) :
    ((sinkOpen p s).1 = .ok ∧
      ∀ ref, (sinkOpen p s).2.sink ref = if ref = .named p then { isOpen := true, content := [] } else s.sink ref) ∨
    (∃ cause, (sinkOpen p s).1 = .fail 0 cause ∧ ∀ ref, (sinkOpen p s).2.sink ref = s.sink ref) := by
  unfold sinkOpen
  dsimp only
  split
  · refine .inl ⟨rfl, fun ref => ?_⟩
    simp [sink_setSink (takeChoice_wf h)]
  · exact .inr ⟨_, rfl, fun ref => by simp⟩

/-- Everything `SinkWrite` can do (R32, R181). -/
theorem sinkWrite_cases {target : SinkRef} {b : List Byte} {s : State} (h : Memory.wf s) :
    ((s.sink target).isOpen = true ∧ (sinkWrite target b s).1 = .ok ∧
      ∀ ref, (sinkWrite target b s).2.sink ref =
        if ref = target then { isOpen := true, content := (s.sink target).content ++ b } else s.sink ref) ∨
    ((s.sink target).isOpen = true ∧ ∃ k cause, k ≤ b.length ∧ (s.config.sinkAtomic = true → k = 0) ∧
      (sinkWrite target b s).1 = .fail k cause ∧
      ∀ ref, (sinkWrite target b s).2.sink ref =
        if ref = target then { isOpen := true, content := (s.sink target).content ++ b.take k } else s.sink ref) ∨
    ((s.sink target).isOpen = false ∧ ∃ cause, (sinkWrite target b s).1 = .fail 0 cause ∧
      ∀ ref, (sinkWrite target b s).2.sink ref = s.sink ref) := by
  have hc := (takeChoice_callFrame s).config
  unfold sinkWrite
  dsimp only
  rw [takeChoice_sink]
  split
  · rename_i ho
    split
    · refine .inl ⟨ho, rfl, fun ref => ?_⟩
      simp [sink_setSink (takeChoice_wf h), ho]
    · refine .inr (.inl ⟨ho, _, _, ?_, ?_, rfl, fun ref => ?_⟩)
      · unfold takenBytes
        split
        · omega
        · exact Nat.min_le_right _ _
      · intro ha
        simp [takenBytes, hc, ha]
      · simp [sink_setSink (takeChoice_wf h), ho]
  · rename_i ho
    exact .inr (.inr ⟨by simpa using ho, _, rfl, fun ref => by simp⟩)

/-- Everything `SinkClose` can do (R32): the sink is closed in both cases. -/
theorem sinkClose_cases {target : SinkRef} {s : State} (h : Memory.wf s) :
    ((sinkClose target s).1 = .ok ∨ ∃ cause, (sinkClose target s).1 = .fail 0 cause) ∧
      ∀ ref, (sinkClose target s).2.sink ref =
        if ref = target then { isOpen := false, content := (s.sink target).content } else s.sink ref := by
  unfold sinkClose
  dsimp only
  split
  · refine ⟨.inl rfl, fun ref => ?_⟩
    simp [sink_setSink (takeChoice_wf h)]
  · refine ⟨.inr ⟨_, rfl⟩, fun ref => ?_⟩
    simp [sink_setSink (takeChoice_wf h)]

/-! ## How a command ends -/

/-- Everything the end of a command can be: a response is given, and it is what `ERR` and `ERRINFO` then hold (R34, R35). -/
theorem finish_next {x : Stage} {t : State} (h : x.finish = .next t) :
    (∃ u data, x = .done u data ∧ t = u.respond okCode (.word 0) data) ∨
    (∃ e u, x = .raised e u ∧ t = u.respond (errorCode e) (errorInfo e) []) := by
  cases x with
  | done u data => exact .inl ⟨u, data, rfl, by simpa using h.symm⟩
  | raised e u => exact .inr ⟨e, u, rfl, by simpa [takeError] using h.symm⟩
  | stop f => cases h

end Sys2Proof.Machine
end

