-- ==== Sys2Proof/Laws/Packer.lean ====
section
/-! SUPPORT. The Bit Packer: the arithmetic of ROWBYTES, what VALIDATE answers, what one SETDOT and what any sequence of them does,
bit by bit, and that the two loops of PACK are one sequence of SETDOTs. -/

namespace Sys2Proof.Machine

/-! ## ROWBYTES -/

theorem rowBytes_eq (w : Nat) : rowBytes w = (w + 31) / 32 * 4 := by
  simp only [rowBytes, roundUp, ceilDiv, pixPerByte, rowAlign]
  omega

theorem rowBytes_le {w : Nat} (h : w ≤ dimMax) : rowBytes w ≤ 2 ^ 29 := by
  rw [rowBytes_eq]
  simp only [dimMax] at h
  omega

/-- A column's byte lies in its scanline (R62). -/
theorem byte_lt_rowBytes {w c : Nat} (h : c < w) : c / 8 < rowBytes w := by
  rw [rowBytes_eq]
  omega

/-! ## VALIDATE -/

theorem someRowRagged_false {m : Matrix} {w h : Nat} :
    someRowRagged m w h = false ↔ ∀ r, r < h → srcRowLen m r = some w := by
  simp [someRowRagged]

theorem someRowRagged_true {m : Matrix} {w h : Nat} :
    someRowRagged m w h = true ↔ ∃ r, r < h ∧ srcRowLen m r ≠ some w := by
  simp [someRowRagged]

/-- What VALIDATE has shown when it returns (R123, R86). -/
structure Validated (cfg : Config) (m : Matrix) (d : Dims) : Prop where
  w_eq : d.w = srcW m
  h_eq : d.h = srcH m
  bpr_eq : d.bpr = rowBytes d.w
  n_eq : d.n = d.bpr * d.h
  w_le : d.w ≤ dimMax
  h_le : d.h ≤ dimMax
  rows : ∀ r, r < d.h → srcRowLen m r = some d.w
  n_le : hdrLen + d.n ≤ dimMax
  n_cap : d.n ≤ cfg.pixcap

theorem validate_ok {cfg : Config} {m : Matrix} {d : Dims} (h : validate cfg m = .ok d) : Validated cfg m d := by
  unfold validate at h
  dsimp only at h
  split at h
  · cases h
  split at h
  · cases h
  split at h
  · cases h
  split at h
  · cases h
  split at h
  · cases h
  rename_i h1 h2 h3 h4 h5
  simp only [Except.ok.injEq] at h
  subst h
  refine ⟨rfl, rfl, rfl, rfl, ?_, ?_, ?_, ?_, ?_⟩
  · simpa using h1
  · simpa using h2
  · exact someRowRagged_false.mp (by simpa using h3)
  · simpa using h4
  · simpa using h5

/-- A cell of a validated matrix is defined (R20). -/
theorem Validated.cell {cfg : Config} {m : Matrix} {d : Dims} (h : Validated cfg m d) {r c : Nat} (hr : r < d.h)
    (hc : c < d.w) : ∃ cell, srcCell cfg m r c = some cell := by
  have hrow := h.rows r hr
  simp only [srcRowLen, Option.map_eq_some_iff] at hrow
  obtain ⟨row, h1, h2⟩ := hrow
  simp [srcCell, h1, h2, hc]

theorem toNat_toWord {n : Nat} (h : n ≤ dimMax) : (toWord n).toNat = n := by
  simp only [dimMax] at h
  simp [toWord, BitVec.toNat_ofNat]
  omega

theorem Validated.bpr_le {cfg : Config} {m : Matrix} {d : Dims} (h : Validated cfg m d) : d.bpr ≤ dimMax := by
  rw [h.bpr_eq]
  have := rowBytes_le h.w_le
  simp only [dimMax]
  omega

theorem Validated.n_le_dimMax {cfg : Config} {m : Matrix} {d : Dims} (h : Validated cfg m d) : d.n ≤ dimMax :=
  Nat.le_trans (Nat.le_add_left _ _) h.n_le

/-! ## One SETDOT -/

/-- No access of SETDOT is out of range (R62). -/
theorem dotOffset_lt {h bpr w r c : Nat} (hr : r < h) (hc : c < w) (hb : bpr = rowBytes w) :
    dotOffset h bpr r c < bpr * h := by
  have h1 : c / 8 < bpr := hb ▸ byte_lt_rowBytes hc
  have h2 : (h - 1 - r) * bpr + bpr ≤ h * bpr := by
    rw [← Nat.succ_mul]
    exact Nat.mul_le_mul_right _ (by omega)
  rw [Nat.mul_comm bpr h]
  unfold dotOffset
  omega

/-- Where the accesses are in range, SETDOT ORs one bit into one byte of `PIX` and changes nothing else (R124). -/
theorem setDot_eq {r c cell : Nat} {s : State} (hcell : srcCell s.config s.env.matrix r c = some cell)
    (hoff : dotOffset s.eng.height.toNat s.eng.bpr.toNat r c < s.eng.pix.length) :
    setDot r c s = .ok (s.setSpace .pix
      (s.eng.pix.modify (dotOffset s.eng.height.toNat s.eng.bpr.toNat r c) (· ||| dotMask (dotOf cell) (dotPos c)))) := by
  have hr : memRead .pix (dotOffset s.eng.height.toNat s.eng.bpr.toNat r c) 1 s =
      .ok [s.eng.pix[dotOffset s.eng.height.toNat s.eng.bpr.toNat r c]] := by
    rw [memRead_of_le (by simpa using hoff)]
    simp [List.take_one_drop_eq_of_lt_length hoff]
  simp only [setDot, hcell, hr]
  rw [memWrite_of_le (by simpa using hoff) (by simp)]
  congr 2
  simp only [space_pix]
  rw [List.modify_eq_take_cons_drop hoff]
  simp

/-! ## Bits of a byte sequence -/

/-- Bit `k` of byte `a`, `false` past the end. -/
def bitAt (p : List Byte) (a k : Nat) : Bool := (p[a]?.getD 0).getLsbD k

theorem bitAt_modify {p : List Byte} {off a k : Nat} {m : Byte} (h : off < p.length) :
    bitAt (p.modify off (· ||| m)) a k = (bitAt p a k || (decide (off = a) && m.getLsbD k)) := by
  unfold bitAt
  rw [List.getElem?_modify]
  by_cases ha : off = a
  · subst ha
    simp [h]
  · simp [ha]

/-- Byte sequences of one length with equal bits are equal. -/
theorem eq_of_bitAt {p q : List Byte} (hl : p.length = q.length) (h : ∀ a k, a < p.length → k < 8 → bitAt p a k = bitAt q a k) :
    p = q := by
  refine List.ext_getElem hl fun a ha hb => ?_
  refine BitVec.eq_of_getLsbD_eq fun k hk => ?_
  have := h a k ha hk
  simpa [bitAt, ha, hb] using this

theorem dotOf_eq (cell : Nat) : dotOf cell = cell % 2 := by simp [dotOf, Nat.and_one_is_mod]

/-- The mask of a dot has the one bit at its position, if the dot is 1. -/
theorem dotMask_getLsbD (cell pos k : Nat) (hp : pos < 8) :
    (dotMask (dotOf cell) pos).getLsbD k = (decide (pos = k) && decide (dotOf cell = 1)) := by
  have h2 : dotOf cell = 0 ∨ dotOf cell = 1 := by rw [dotOf_eq]; omega
  rcases h2 with h2 | h2
  · simp [h2, dotMask]
  · rw [h2]
    simp only [dotMask, Nat.one_shiftLeft, BitVec.getLsbD_ofNat, Nat.testBit_two_pow]
    by_cases hk : pos = k
    · subst hk
      simp [hp]
    · simp [hk]

theorem dotPos_lt (c : Nat) : dotPos c < 8 := by unfold dotPos; omega

/-! ## Sequences of SETDOTs -/

/-- The cell sets bit `k` of byte `a`: its address is `a`, its position `k` and its dot 1. -/
def hits (s : State) (a k : Nat) (rc : Nat × Nat) : Bool :=
  decide (dotOffset s.eng.height.toNat s.eng.bpr.toNat rc.1 rc.2 = a) && decide (dotPos rc.2 = k) &&
    decide (matrixDot s.config s.env.matrix rc.1 rc.2 = 1)

theorem matrixDot_of_cell {cfg : Config} {m : Matrix} {r c cell : Nat} (h : srcCell cfg m r c = some cell) :
    matrixDot cfg m r c = dotOf cell := by
  simp [matrixDot, h]

/-- Any sequence of SETDOTs whose accesses are in range changes `PIX` only, keeps its length, and sets exactly the bits that some
cell of the sequence hits (R124, R127, R128). -/
theorem setDots_bits (l : List (Nat × Nat)) (s : State)
    (hl : ∀ rc ∈ l, (∃ cell, srcCell s.config s.env.matrix rc.1 rc.2 = some cell) ∧
      dotOffset s.eng.height.toNat s.eng.bpr.toNat rc.1 rc.2 < s.eng.pix.length) :
    ∃ p, setDots l s = .ok (s.setSpace .pix p) ∧ p.length = s.eng.pix.length ∧
      ∀ a k, bitAt p a k = (bitAt s.eng.pix a k || l.any (hits s a k)) := by
  induction l generalizing s with
  | nil => exact ⟨s.eng.pix, rfl, rfl, by simp⟩
  | cons rc rest ih =>
    obtain ⟨r, c⟩ := rc
    obtain ⟨⟨cell, hcell⟩, hoff⟩ := hl (r, c) (by simp)
    have hstep := setDot_eq hcell hoff
    obtain ⟨p, h1, h2, h3⟩ := ih (s.setSpace .pix
        (s.eng.pix.modify (dotOffset s.eng.height.toNat s.eng.bpr.toNat r c) (· ||| dotMask (dotOf cell) (dotPos c)))) (by
      intro rc' h'
      simpa using hl rc' (by simp [h']))
    refine ⟨p, ?_, ?_, ?_⟩
    · simp only [setDots, hstep]
      simpa using h1
    · simpa using h2
    · intro a k
      rw [h3 a k]
      have hh : hits (s.setSpace .pix
        (s.eng.pix.modify (dotOffset s.eng.height.toNat s.eng.bpr.toNat r c) (· ||| dotMask (dotOf cell) (dotPos c)))) a k =
          hits s a k := by
        rfl
      rw [hh]
      simp only [setPix_pix, List.any_cons]
      rw [bitAt_modify hoff, dotMask_getLsbD _ _ _ (dotPos_lt c)]
      have h0 : hits s a k (r, c) =
          (decide (dotOffset s.eng.height.toNat s.eng.bpr.toNat r c = a) &&
            (decide (dotPos c = k) && decide (dotOf cell = 1))) := by
        simp [hits, matrixDot_of_cell hcell, Bool.and_assoc]
      rw [h0, Bool.or_assoc]

theorem setDots_append (l l' : List (Nat × Nat)) (s : State) :
    setDots (l ++ l') s = (match setDots l s with
      | .ok t => setDots l' t
      | .error f => .error f) := by
  induction l generalizing s with
  | nil => rfl
  | cons rc rest ih =>
    obtain ⟨r, c⟩ := rc
    simp only [List.cons_append, setDots]
    split
    · exact ih _
    · rfl

theorem forUpTo_setDot (r w : Nat) (s : State) :
    forUpTo (fun c => setDot r c) w s = setDots ((List.range w).map fun c => (r, c)) s := by
  induction w generalizing s with
  | zero => rfl
  | succ n ih =>
    rw [List.range_succ, List.map_append, setDots_append, forUpTo, ih]
    cases setDots ((List.range n).map fun c => (r, c)) s with
    | error f => rfl
    | ok t =>
      simp only [List.map_cons, List.map_nil, setDots]
      cases setDot r n t <;> rfl

/-- The loops of PACK are SETDOT at every cell, rows top to bottom and columns left to right. -/
theorem setAllDots_eq (h w : Nat) (s : State) : setAllDots h w s = setDots (allCells h w) s := by
  unfold setAllDots allCells
  induction h generalizing s with
  | zero => rfl
  | succ n ih =>
    rw [List.range_succ, List.flatMap_append, setDots_append, forUpTo, ih]
    cases setDots ((List.range n).flatMap fun r => (List.range w).map fun c => (r, c)) s with
    | error f => rfl
    | ok t => simpa using forUpTo_setDot n w t

theorem mem_allCells {h w r c : Nat} : (r, c) ∈ allCells h w ↔ r < h ∧ c < w := by
  simp [allCells]

/-! ## Scanlines and bytes -/

/-- A byte offset names one scanline and one byte of it (R130). -/
theorem scanline_unique {q q' x x' b : Nat} (hx : x < b) (hx' : x' < b) (h : q * b + x = q' * b + x') :
    q = q' ∧ x = x' := by
  have hb : 0 < b := Nat.lt_of_le_of_lt (Nat.zero_le x) hx
  have e1 := congrArg (· / b) h
  have e2 := congrArg (· % b) h
  simp only [Nat.mul_comm q b, Nat.mul_comm q' b, Nat.mul_add_div hb, Nat.mul_add_mod, Nat.div_eq_of_lt hx,
    Nat.div_eq_of_lt hx', Nat.mod_eq_of_lt hx, Nat.mod_eq_of_lt hx', Nat.add_zero] at e1 e2
  exact ⟨e1, e2⟩

/-- A byte of a scanline lies in the pixel data (R62). -/
theorem scanline_lt {line h j b : Nat} (hl : line < h) (hj : j < b) : line * b + j < b * h := by
  have : line * b + b ≤ h * b := by
    rw [← Nat.succ_mul]
    exact Nat.mul_le_mul_right _ hl
  rw [Nat.mul_comm b h]
  omega

/-- UNPACK reads one bit (R132). -/
theorem unpackDot_eq (pix : List Byte) (w h r c : Nat) (hlt : (h - 1 - r) * rowBytes w + c / 8 < pix.length) :
    unpackDot pix w h r c = some (bitAt pix ((h - 1 - r) * rowBytes w + c / 8) (7 - c % 8)).toNat := by
  unfold unpackDot bitAt
  simp only [List.getElem?_eq_getElem hlt, Option.map_some, Option.getD_some, Option.some.injEq]
  generalize pix[(h - 1 - r) * rowBytes w + c / 8] = y
  rw [Nat.and_one_is_mod, BitVec.getLsbD, Nat.testBit, Nat.one_and_eq_mod_two]
  have : y.toNat >>> (7 - c % 8) % 2 = 0 ∨ y.toNat >>> (7 - c % 8) % 2 = 1 := by omega
  rcases this with h | h <;> simp [h]

/-! ## The closed form -/

/-- The bits of a byte of the closed form (R88). -/
theorem laneOr_getLsbD (cfg : Config) (m : Matrix) (w r j n p : Nat) (hn : n ≤ 8) (hp : p < 8) :
    (laneOr cfg m w r j n).getLsbD p =
      (decide (7 - p < n) && decide (8 * j + (7 - p) < w) && decide (matrixDot cfg m r (8 * j + (7 - p)) = 1)) := by
  induction n with
  | zero => simp [laneOr]
  | succ k ih =>
    simp only [laneOr, BitVec.getLsbD_or]
    rw [ih (by omega)]
    have hdot : ∀ x, matrixDot cfg m r x = dotOf (matrixDot cfg m r x) := by
      intro x
      unfold matrixDot
      split
      · simp [dotOf_eq]
      · rfl
    by_cases hk : k = 7 - p
    · subst hk
      have h7 : 7 - (7 - p) = p := by omega
      split
      · rename_i hw
        rw [hdot, dotMask_getLsbD _ _ _ (by omega), ← hdot]
        simp [h7, hw]
      · rename_i hw
        simp [hw]
    · have h1 : ¬ (7 - k = p) := by omega
      have h2 : (7 - p < k + 1) ↔ (7 - p < k) := by omega
      have h3 : ((if 8 * j + k < w then dotMask (matrixDot cfg m r (8 * j + k)) (7 - k) else 0#8).getLsbD p) = false := by
        split
        · rw [hdot, dotMask_getLsbD _ _ _ (by omega)]
          simp [h1]
        · simp
      simp [h2, h3]

theorem pixelData_length (cfg : Config) (m : Matrix) (d : Dims) : (pixelData cfg m d).length = d.n := by
  simp [pixelData]

/-- Byte `j` of a scanline of the pixel data (R84). -/
theorem pixelData_get (cfg : Config) (m : Matrix) (d : Dims) (hn : d.n = d.bpr * d.h) {line j : Nat} (hl : line < d.h)
    (hj : j < d.bpr) : (pixelData cfg m d)[line * d.bpr + j]? = some (pixelByte cfg m d.w d.h line j) := by
  have hlt := scanline_lt hl hj
  have hb : 0 < d.bpr := by omega
  simp only [pixelData, List.getElem?_map]
  rw [List.getElem?_range (by omega)]
  simp only [Option.map_some, Option.some.injEq]
  rw [Nat.mul_comm, Nat.mul_add_div hb, Nat.mul_add_mod, Nat.div_eq_of_lt hj, Nat.mod_eq_of_lt hj, Nat.add_zero]

/-- Every byte of the pixel data is a byte of a scanline. -/
theorem exists_scanline {b h a : Nat} (ha : a < b * h) : ∃ line j, line < h ∧ j < b ∧ a = line * b + j := by
  have hb : 0 < b := by
    rcases Nat.eq_zero_or_pos b with rfl | h
    · simp at ha
    · exact h
  refine ⟨a / b, a % b, Nat.div_lt_of_lt_mul ha, Nat.mod_lt _ hb, ?_⟩
  rw [Nat.mul_comm]
  exact (Nat.div_add_mod a b).symm

/-! ## PACK -/

/-- Where the loops of PACK start: the dimensions latched, `PIX` zeroed (R126). -/
def State.zeroed (s : State) (d : Dims) : State := (s.latch d.w d.h d.bpr d.n).setSpace .pix (zeros d.n)

/-- Any sequence of SETDOTs at cells of a validated matrix, from the zeroed buffer, sets exactly the bits its cells hit. -/
theorem setDots_zeroed {s : State} {d : Dims} (v : Validated s.config s.env.matrix d) (l : List (Nat × Nat))
    (hl : ∀ rc ∈ l, rc.1 < d.h ∧ rc.2 < d.w) :
    ∃ p, setDots l (s.zeroed d) = .ok ((s.zeroed d).setSpace .pix p) ∧ p.length = d.n ∧
      ∀ a k, bitAt p a k = l.any (hits (s.zeroed d) a k) := by
  have hz : ∀ a k, bitAt (s.zeroed d).eng.pix a k = false := by
    intro a k
    simp only [State.zeroed, setPix_pix, bitAt, zeros]
    by_cases h : a < d.n <;> simp [h]
  obtain ⟨p, h1, h2, h3⟩ := setDots_bits l (s.zeroed d) (by
    intro rc hrc
    obtain ⟨hr, hc⟩ := hl rc hrc
    refine ⟨v.cell hr hc, ?_⟩
    simp only [State.zeroed, setPix_height, latch_height, setPix_bpr, latch_bpr, setPix_pix, toNat_toWord v.h_le,
      toNat_toWord v.bpr_le, zeros, List.length_replicate]
    rw [v.n_eq]
    exact dotOffset_lt hr hc v.bpr_eq)
  refine ⟨p, h1, by simpa [State.zeroed, zeros] using h2, fun a k => ?_⟩
  rw [h3, hz, Bool.false_or]

/-- The loops of PACK give the closed form (R127). -/
theorem setAllDots_zeroed {s : State} {d : Dims} (v : Validated s.config s.env.matrix d) :
    setAllDots d.h d.w (s.zeroed d) = .ok ((s.zeroed d).setSpace .pix (pixelData s.config s.env.matrix d)) := by
  rw [setAllDots_eq]
  obtain ⟨p, h1, h2, h3⟩ := setDots_zeroed v (allCells d.h d.w) (by rintro ⟨r, c⟩ h; exact mem_allCells.mp h)
  rw [h1]
  congr 2
  refine eq_of_bitAt (by rw [h2, pixelData_length]) fun a k ha hk => ?_
  rw [h2, v.n_eq] at ha
  obtain ⟨line, j, hl, hj, rfl⟩ := exists_scanline ha
  have hh : (s.zeroed d).eng.height.toNat = d.h := toNat_toWord v.h_le
  have hb : (s.zeroed d).eng.bpr.toNat = d.bpr := toNat_toWord v.bpr_le
  rw [h3]
  unfold bitAt
  rw [pixelData_get _ _ _ v.n_eq hl hj]
  simp only [Option.getD_some, pixelByte]
  rw [laneOr_getLsbD _ _ _ _ _ _ _ (by omega) hk, Bool.eq_iff_iff]
  simp only [List.any_eq_true, hits, Bool.and_eq_true, decide_eq_true_eq]
  rw [hh, hb]
  constructor
  · rintro ⟨⟨r, c⟩, hm, ⟨ho, hp⟩, hd⟩
    obtain ⟨hr, hc⟩ := mem_allCells.mp hm
    have hcb : c / 8 < d.bpr := v.bpr_eq ▸ byte_lt_rowBytes hc
    obtain ⟨e1, e2⟩ := scanline_unique hcb hj ho
    simp only [dotPos] at hp
    have hr' : d.h - 1 - line = r := by omega
    have hc' : 8 * j + (7 - k) = c := by omega
    rw [hr', hc']
    exact ⟨⟨by omega, hc⟩, hd⟩
  · rintro ⟨⟨-, hc⟩, hd⟩
    refine ⟨(d.h - 1 - line, 8 * j + (7 - k)), mem_allCells.mpr ⟨by omega, hc⟩, ⟨?_, ?_⟩, hd⟩
    · have e1 : d.h - 1 - (d.h - 1 - line) = line := by omega
      have e2 : (8 * j + (7 - k)) / 8 = j := by omega
      simp only [dotOffset, e1, e2]
    · simp only [dotPos]
      omega

/-- The state at the end of PACK's pseudocode. -/
def State.packed (s : State) (d : Dims) : State :=
  ((s.clearValid.zeroed d).setSpace .pix (pixelData s.config s.env.matrix d)).setPixv

@[simp] theorem packed_width (s : State) (d : Dims) : (s.packed d).eng.width = toWord d.w := rfl
@[simp] theorem packed_height (s : State) (d : Dims) : (s.packed d).eng.height = toWord d.h := rfl
@[simp] theorem packed_bpr (s : State) (d : Dims) : (s.packed d).eng.bpr = toWord d.bpr := rfl
@[simp] theorem packed_pdlen (s : State) (d : Dims) : (s.packed d).eng.pdlen = toWord d.n := rfl
@[simp] theorem packed_pix (s : State) (d : Dims) : (s.packed d).eng.pix = pixelData s.config s.env.matrix d := rfl
@[simp] theorem packed_hdr (s : State) (d : Dims) : (s.packed d).eng.hdr = s.eng.hdr := rfl
@[simp] theorem packed_file (s : State) (d : Dims) : (s.packed d).eng.file = s.eng.file := rfl
@[simp] theorem packed_pixv (s : State) (d : Dims) : (s.packed d).eng.pixv = true := rfl
@[simp] theorem packed_hdrv (s : State) (d : Dims) : (s.packed d).eng.hdrv = false := rfl
@[simp] theorem packed_filev (s : State) (d : Dims) : (s.packed d).eng.filev = false := rfl
@[simp] theorem packed_err (s : State) (d : Dims) : (s.packed d).eng.err = s.eng.err := rfl
@[simp] theorem packed_errinfo (s : State) (d : Dims) : (s.packed d).eng.errinfo = s.eng.errinfo := rfl
@[simp] theorem packed_env (s : State) (d : Dims) : (s.packed d).env = s.env := rfl
@[simp] theorem packed_port (s : State) (d : Dims) : (s.packed d).port = s.port := rfl
@[simp] theorem packed_config (s : State) (d : Dims) : (s.packed d).config = s.config := rfl
@[simp] theorem packed_freeCtr (s : State) (d : Dims) : (s.packed d).freeCtr = s.freeCtr := rfl

theorem packStage_ok {s : State} {d : Dims} (h : validate s.config s.env.matrix = .ok d) :
    packStage s = .done (s.packed d) [] := by
  have := setAllDots_zeroed (s := s.clearValid) (validate_ok h)
  unfold State.zeroed at this
  unfold packStage
  dsimp only
  simp only [clearValid_config, clearValid_env, h, this]
  rfl

theorem packStage_error {s : State} {sub : SubCause} (h : validate s.config s.env.matrix = .error sub) :
    packStage s = .raised (.invalidDimension sub) s.clearValid.unspecify := by
  simp [packStage, h]

/-- Everything PACK can do: it never stops. -/
theorem packStage_cases (s : State) :
    (∃ d, validate s.config s.env.matrix = .ok d ∧ Validated s.config s.env.matrix d ∧ packStage s = .done (s.packed d) []) ∨
    (∃ sub, validate s.config s.env.matrix = .error sub ∧
      packStage s = .raised (.invalidDimension sub) s.clearValid.unspecify) := by
  cases h : validate s.config s.env.matrix with
  | ok d => exact .inl ⟨d, rfl, validate_ok h, packStage_ok h⟩
  | error sub => exact .inr ⟨sub, rfl, packStage_error h⟩

end Sys2Proof.Machine
end

