-- ==== Sys2Proof/Laws/Stages.lean ====
section
/-! SUPPORT. What the stages BLDHDR and ASM can do, what the outputs can do, and that none of them stops where the invariant
holds. -/

namespace Sys2Proof.Machine

/-! ## Little-endian fields -/

theorem byteOf_toNat (v i : Nat) : (byteOf v i).toNat = v / 256 ^ i % 256 := by
  simp [byteOf]

@[simp] theorem le32_length (v : Nat) : (le32 v).length = 4 := rfl
@[simp] theorem le16_length (v : Nat) : (le16 v).length = 2 := rfl

/-- A reader of a 4-byte field gets the value back (R59). -/
theorem leNat_le32 {v : Nat} (h : v < 2 ^ 32) : leNat (le32 v) = v := by
  simp only [le32, leNat, byteOf_toNat]
  omega

/-- A reader of a 2-byte field gets the value back (R59). -/
theorem leNat_le16 {v : Nat} (h : v < 2 ^ 16) : leNat (le16 v) = v := by
  simp only [le16, leNat, byteOf_toNat]
  omega

/-! ## BLDHDR -/

@[simp] theorem fileHeader_length (n : Nat) : (fileHeader n).length = 14 := rfl
@[simp] theorem infoHeader_length (w h n : Nat) : (infoHeader w h n).length = 40 := rfl
@[simp] theorem colourTable_length : colourTable.length = 8 := rfl
@[simp] theorem headerTemplate_length (w h n : Nat) : (headerTemplate w h n).length = 62 := rfl

/-- The three parts that BuildHeaders makes are the template of R90. -/
theorem headerParts_eq_template (w h n : Nat) : fileHeader n ++ infoHeader w h n ++ colourTable = headerTemplate w h n := rfl

/-! The four fields of the template that depend on the matrix (R90). -/

theorem template_fileSize (w h n : Nat) : ((headerTemplate w h n).drop 2).take 4 = le32 (62 + n) := rfl
theorem template_width (w h n : Nat) : ((headerTemplate w h n).drop 18).take 4 = le32 w := rfl
theorem template_height (w h n : Nat) : ((headerTemplate w h n).drop 22).take 4 = le32 h := rfl
theorem template_imageSize (w h n : Nat) : ((headerTemplate w h n).drop 34).take 4 = le32 n := rfl

theorem buildHeaders_of_le {w h n : Nat} (hw : w ≤ dimMax) (hh : h ≤ dimMax) (hn : n ≤ 2 ^ 32 - 63) :
    buildHeaders w h n = .ok (fileHeader n, infoHeader w h n, colourTable) := if_pos ⟨hw, hh, hn⟩

theorem word_le_dimMax (w : Word) : w.toNat ≤ dimMax := Nat.le_pred_of_lt w.isLt

/-- The three writes of BLDHDR fill the first 62 bytes (R140). -/
theorem three_writes (old fh ih ct : List Byte) (h1 : fh.length = 14) (h2 : ih.length = 40) :
    let a := old.take 0 ++ fh ++ old.drop (0 + fhLen)
    let b := a.take 14 ++ ih ++ a.drop (14 + ihLen)
    b.take 54 ++ ct ++ b.drop (54 + ctLen) = fh ++ ih ++ ct ++ old.drop 62 := by
  dsimp only [fhLen, ihLen, ctLen]
  have e2 : (fh ++ ih).take 54 = fh ++ ih := List.take_of_length_le (by simp; omega)
  simp only [List.take_zero, List.nil_append]
  rw [List.take_left' h1, List.take_append_of_le_length (by simp [h1, h2]), e2]
  have e3 : (fh ++ ih ++ (fh ++ old.drop (0 + 14)).drop (14 + 40)).drop (54 + 8) = old.drop 62 := by
    rw [List.drop_append, List.drop_eq_nil_of_le (by simp [h1, h2]), List.nil_append, List.drop_drop, List.drop_append,
      List.drop_eq_nil_of_le (by simp [h1, h2]), List.nil_append, List.drop_drop]
    congr 1
    simp [h1, h2]
  rw [e3]

/-- The header the registers of a state give. -/
def State.headerBytes (s : State) : List Byte :=
  headerTemplate s.eng.width.toNat s.eng.height.toNat s.eng.pdlen.toNat

/-- The state at the end of BLDHDR's pseudocode. -/
def State.withHeader (s : State) : State := ((s.clearFromHdr).setSpace .hdr s.headerBytes).setHdrv

theorem bldhdrStage_not_held {s : State} (h : s.eng.pixv = false) :
    bldhdrStage s = .raised (.sequenceError 0x02#8) s := by
  simp [bldhdrStage, h, encodeCode]

/-- BLDHDR runs through when dimensions are latched, the space `HDR` has its bytes and the fields fit (R140, R141). -/
theorem bldhdrStage_run {s : State} (h : s.eng.pixv = true) (hl : 62 ≤ s.eng.hdr.length)
    (hn : s.eng.pdlen.toNat ≤ 2 ^ 32 - 63) :
    bldhdrStage s = .done (((s.clearFromHdr).setSpace .hdr (s.headerBytes ++ s.eng.hdr.drop 62)).setHdrv) [] := by
  have hb := buildHeaders_of_le (word_le_dimMax s.eng.width) (word_le_dimMax s.eng.height) hn
  unfold bldhdrStage
  simp only [h, needs_held, clearFromHdr_width, clearFromHdr_height, clearFromHdr_pdlen, hb, ofExcept_ok]
  rw [memWrite_of_le (by simp [fhLen]; omega) (by simp), ofExcept_ok,
    memWrite_of_le (by simp [fhLen, ihLen]; omega) (by simp), ofExcept_ok,
    memWrite_of_le (by simp [fhLen, ihLen, ctLen]; omega) (by simp), ofExcept_ok]
  simp only [setSpace_setSpace, setHdr_hdr, space_hdr, clearFromHdr_hdr, State.headerBytes]
  rw [three_writes s.eng.hdr (fileHeader _) (infoHeader _ _ _) colourTable rfl rfl, headerParts_eq_template]

theorem bldhdrStage_held {s : State} (h : s.eng.pixv = true) (hl : s.eng.hdr.length = 62)
    (hn : s.eng.pdlen.toNat ≤ 2 ^ 32 - 63) : bldhdrStage s = .done s.withHeader [] := by
  rw [bldhdrStage_run h (by omega) hn, List.drop_eq_nil_of_le (by omega), List.append_nil]
  rfl

/-- Everything BLDHDR can do. -/
theorem bldhdrStage_cases (s : State) (hl : s.eng.hdr.length = 62) :
    (s.eng.pixv = false ∧ bldhdrStage s = .raised (.sequenceError 0x02#8) s) ∨
    (s.eng.pixv = true ∧ s.eng.pdlen.toNat ≤ 2 ^ 32 - 63 ∧ bldhdrStage s = .done s.withHeader []) ∨
    (s.eng.pixv = true ∧ ∃ f, bldhdrStage s = .stop f) := by
  cases hp : s.eng.pixv with
  | false => exact .inl ⟨rfl, bldhdrStage_not_held hp⟩
  | true =>
    by_cases hn : s.eng.pdlen.toNat ≤ 2 ^ 32 - 63
    · exact .inr (.inl ⟨rfl, hn, bldhdrStage_held hp hl hn⟩)
    · refine .inr (.inr ⟨rfl, .headerRange, ?_⟩)
      have hb : buildHeaders s.eng.width.toNat s.eng.height.toNat s.eng.pdlen.toNat = .error .headerRange :=
        if_neg fun h => hn h.2.2
      simp [bldhdrStage, hp, hb]

/-! ## ASM -/

/-- The state at the end of ASM's pseudocode. -/
def State.assembled (s : State) : State := ((s.clearFile).setSpace .file (s.eng.hdr ++ s.eng.pix)).setFilev

theorem asmStage_not_held {s : State} (h : (s.eng.pixv && s.eng.hdrv) = false) :
    asmStage s = .raised (.sequenceError 0x03#8) s := by
  simp [asmStage, h, encodeCode]

/-- ASM runs through when both results are held and the spaces have their bytes (R170). -/
theorem asmStage_run {s : State} (h : (s.eng.pixv && s.eng.hdrv) = true) (hl : 62 ≤ s.eng.hdr.length)
    (hn : s.eng.pdlen.toNat ≤ s.eng.pix.length) :
    asmStage s = .done
      ((s.clearFile).setSpace .file (s.eng.hdr.take 62 ++ s.eng.pix.take s.eng.pdlen.toNat)).setFilev [] := by
  unfold asmStage
  rw [h, needs_held]
  dsimp only
  rw [memRead_of_le (by simpa [hdrLen] using hl), ofExcept_ok, memRead_of_le (by simpa using hn), ofExcept_ok]
  rfl

theorem asmStage_held {s : State} (h : (s.eng.pixv && s.eng.hdrv) = true) (hl : s.eng.hdr.length = 62)
    (hn : s.eng.pix.length = s.eng.pdlen.toNat) : asmStage s = .done s.assembled [] := by
  rw [asmStage_run h (by omega) (by omega), List.take_of_length_le (by omega), List.take_of_length_le (by omega)]
  rfl

/-! ## The held file -/

theorem heldFile_of_le {s : State} (h : 62 + s.eng.pdlen.toNat ≤ s.eng.file.length) :
    heldFile s = .ok (s.eng.file.take (62 + s.eng.pdlen.toNat)) := by
  unfold heldFile
  rw [memRead_of_le (by simpa using h)]
  simp

theorem heldFile_ok {s : State} {bytes : List Byte} (h : heldFile s = .ok bytes) :
    62 + s.eng.pdlen.toNat ≤ s.eng.file.length ∧ bytes = s.eng.file.take (62 + s.eng.pdlen.toNat) := by
  obtain ⟨h1, h2⟩ := memRead_ok h
  exact ⟨by simpa using h1, by simpa using h2⟩

/-- The held file depends on `FILE` and `PDLEN` only. -/
theorem heldFile_congr {s t : State} (h : t.eng = s.eng) : heldFile t = heldFile s := by
  simp [heldFile, memRead, State.space, h]

end Sys2Proof.Machine
end

