-- ==== Sys2Proof/Laws/Commands.lean ====
section
/-! SUPPORT. One lemma for each command that says everything its run can do, in every state. -/

namespace Sys2Proof.Machine

theorem ofExcept_done {α : Type} {r : Except Fault α} {rest : α → Stage} {u : State} {data : List Byte}
    (h : Stage.ofExcept r rest = .done u data) : ∃ a, r = .ok a ∧ rest a = .done u data := by
  cases r with
  | ok a => exact ⟨a, rfl, h⟩
  | error f => cases h

theorem ofExcept_raised {α : Type} {r : Except Fault α} {rest : α → Stage} {u : State} {e : EngineError}
    (h : Stage.ofExcept r rest = .raised e u) : ∃ a, r = .ok a ∧ rest a = .raised e u := by
  cases r with
  | ok a => exact ⟨a, rfl, h⟩
  | error f => cases h

/-! ## The stages -/

/-- Where BLDHDR completes, it has written the first 62 bytes of `HDR` and two flags. -/
theorem bldhdrStage_done {s u : State} {data : List Byte} (h : bldhdrStage s = .done u data) :
    s.eng.pixv = true ∧ data = [] ∧ 62 ≤ s.eng.hdr.length ∧ s.eng.pdlen.toNat ≤ 2 ^ 32 - 63 ∧
      u = ((s.clearFromHdr).setSpace .hdr (s.headerBytes ++ s.eng.hdr.drop 62)).setHdrv := by
  cases hp : s.eng.pixv with
  | false => rw [bldhdrStage_not_held hp] at h; cases h
  | true =>
    have h0 := h
    unfold bldhdrStage at h
    rw [hp, needs_held] at h
    obtain ⟨⟨fh, ih, ct⟩, hb, h⟩ := ofExcept_done h
    obtain ⟨s1, h1, h⟩ := ofExcept_done h
    obtain ⟨s2, h2, h⟩ := ofExcept_done h
    obtain ⟨s3, h3, h⟩ := ofExcept_done h
    have hn : s.eng.pdlen.toNat ≤ 2 ^ 32 - 63 := by
      unfold buildHeaders at hb
      split at hb
      · rename_i hle
        exact hle.2.2
      · cases hb
    have hl : 62 ≤ s.eng.hdr.length := by
      have l1 := memWrite_length h1
      have l2 := memWrite_length h2
      have l3 := (memWrite_ok h3).1
      simp only [space_hdr, clearFromHdr_hdr, ctLen] at l1 l2 l3
      omega
    rw [bldhdrStage_run hp hl hn] at h0
    simp only [Stage.done.injEq] at h0
    exact ⟨rfl, h0.2.symm, hl, hn, h0.1.symm⟩

/-- BLDHDR raises only the `SequenceError` of its first line. -/
theorem bldhdrStage_raised {s u : State} {e : EngineError} (h : bldhdrStage s = .raised e u) :
    s.eng.pixv = false ∧ e = .sequenceError 0x02#8 ∧ u = s := by
  cases hp : s.eng.pixv with
  | false =>
    rw [bldhdrStage_not_held hp] at h
    simp only [Stage.raised.injEq] at h
    exact ⟨rfl, h.1.symm, h.2.symm⟩
  | true =>
    unfold bldhdrStage at h
    rw [hp, needs_held] at h
    obtain ⟨⟨fh, ih, ct⟩, -, h⟩ := ofExcept_raised h
    obtain ⟨s1, -, h⟩ := ofExcept_raised h
    obtain ⟨s2, -, h⟩ := ofExcept_raised h
    obtain ⟨s3, -, h⟩ := ofExcept_raised h
    cases h

/-- Where ASM completes, it has written `FILE` and `FILEV`. -/
theorem asmStage_done {s u : State} {data : List Byte} (h : asmStage s = .done u data) :
    s.eng.pixv = true ∧ s.eng.hdrv = true ∧ data = [] ∧ 62 ≤ s.eng.hdr.length ∧ s.eng.pdlen.toNat ≤ s.eng.pix.length ∧
      u = ((s.clearFile).setSpace .file (s.eng.hdr.take 62 ++ s.eng.pix.take s.eng.pdlen.toNat)).setFilev := by
  cases hp : (s.eng.pixv && s.eng.hdrv) with
  | false => rw [asmStage_not_held hp] at h; cases h
  | true =>
    have h0 := h
    unfold asmStage at h
    rw [hp, needs_held] at h
    obtain ⟨header, h1, h⟩ := ofExcept_done h
    obtain ⟨pixels, h2, h⟩ := ofExcept_done h
    have l1 : 62 ≤ s.eng.hdr.length := by simpa [hdrLen] using (memRead_ok h1).1
    have l2 : s.eng.pdlen.toNat ≤ s.eng.pix.length := by simpa using (memRead_ok h2).1
    rw [asmStage_run hp l1 l2] at h0
    simp only [Stage.done.injEq] at h0
    rw [Bool.and_eq_true] at hp
    exact ⟨hp.1, hp.2, h0.2.symm, l1, l2, h0.1.symm⟩

/-- ASM raises only the `SequenceError` of its first line. -/
theorem asmStage_raised {s u : State} {e : EngineError} (h : asmStage s = .raised e u) :
    (s.eng.pixv && s.eng.hdrv) = false ∧ e = .sequenceError 0x03#8 ∧ u = s := by
  cases hp : (s.eng.pixv && s.eng.hdrv) with
  | false =>
    rw [asmStage_not_held hp] at h
    simp only [Stage.raised.injEq] at h
    exact ⟨rfl, h.1.symm, h.2.symm⟩
  | true =>
    unfold asmStage at h
    rw [hp, needs_held] at h
    obtain ⟨header, -, h⟩ := ofExcept_raised h
    obtain ⟨pixels, -, h⟩ := ofExcept_raised h
    cases h

/-! ## The outputs -/

/-- Everything an output can do up to the end of its command: without a held file it raises `SequenceError` at the first line;
with one it ends with what its body does. -/
theorem needs_cases (held : Bool) (i : Instr) (s : State) (rest : State → Stage) :
    (held = false ∧ needs held i s rest = .raised (.sequenceError (encodeCode i)) s) ∨
    (held = true ∧ needs held i s rest = rest s) := by
  cases held <;> simp

/-- Everything WRFILE can do after its open (R178, R179): the named sink is closed at the end, holding what the write left in it,
and the write's failure is reported before the close's. -/
theorem writeAndClose_cases {p : Path} {bytes : List Byte} {s : State} (hw : Memory.wf s) :
    ∃ u, CallFrame s u ∧ Memory.wf u ∧ (∀ ref, ref ≠ .named p → u.sink ref = s.sink ref) ∧
      (u.sink (.named p)).isOpen = false ∧
      ((writeAndClose p bytes s = .done u [] ∧
          u.sink (.named p) = { isOpen := false, content := (s.sink (.named p)).content ++ bytes }) ∨
        (∃ k cause, writeAndClose p bytes s = .raised (.ioFailure cause) u ∧ k ≤ bytes.length ∧
          (s.config.sinkAtomic = true → k = 0 ∨ k = bytes.length) ∧
          u.sink (.named p) = { isOpen := false, content := (s.sink (.named p)).content ++ bytes.take k })) := by
  have f1 := sinkWrite_callFrame (.named p) bytes s
  have w1 := sinkWrite_wf (ref := .named p) (b := bytes) hw
  have f2 := sinkClose_callFrame (.named p) (sinkWrite (.named p) bytes s).2
  have w2 := sinkClose_wf (ref := .named p) w1
  have hc := sinkWrite_cases (target := .named p) (b := bytes) hw
  obtain ⟨hz, hs2⟩ := sinkClose_cases (target := .named p) w1
  have hdef : writeAndClose p bytes s =
      orIoFailure (sinkWrite (.named p) bytes s).1 (sinkClose (.named p) (sinkWrite (.named p) bytes s).2).2 fun t =>
        orIoFailure (sinkClose (.named p) (sinkWrite (.named p) bytes s).2).1 t fun t => .done t [] := rfl
  rw [hdef]
  generalize (sinkClose (.named p) (sinkWrite (.named p) bytes s).2) = z at *
  generalize (sinkWrite (.named p) bytes s) = w at *
  refine ⟨z.2, f1.trans f2, w2, ?_, by simp [hs2], ?_⟩
  · intro ref hne
    rw [hs2, if_neg hne]
    rcases hc with ⟨-, -, h⟩ | ⟨-, k, cause, -, -, -, h⟩ | ⟨-, cause, -, h⟩ <;> simp [h, hne]
  · rcases hc with ⟨-, ha, h⟩ | ⟨-, k, cause, hk, hat, ha, h⟩ | ⟨-, cause, ha, h⟩
    · rcases hz with hz | ⟨cause, hz⟩
      · refine .inl ⟨by simp [ha, hz, orIoFailure], by simp [hs2, h]⟩
      · refine .inr ⟨bytes.length, cause, by simp [ha, hz, orIoFailure], Nat.le_refl _, fun _ => .inr rfl, ?_⟩
        simp [hs2, h]
    · refine .inr ⟨k, cause, by simp [ha, orIoFailure], hk, fun hh => .inl (hat hh), by simp [hs2, h]⟩
    · refine .inr ⟨0, cause, by simp [ha, orIoFailure], Nat.zero_le _, fun _ => .inl rfl, by simp [hs2, h]⟩

/-- The parts of WRFILE and WRSINK that follow the first line, named so that lemmas can speak of them. -/
def wrfileBody (s : State) : Stage :=
  orIoFailure (sinkOpen s.env.path s).1 (sinkOpen s.env.path s).2 fun t =>
    Stage.ofExcept (heldFile t) fun bytes => writeAndClose s.env.path bytes t

/-- See `wrfileBody`. -/
def wrsinkBody (s : State) : Stage :=
  Stage.ofExcept (heldFile s) fun bytes =>
    orIoFailure (sinkWrite .stream bytes s).1 (sinkWrite .stream bytes s).2 fun t => .done t []

/-- See `wrfileBody`. -/
def getbytesBody (s : State) : Stage := Stage.ofExcept (heldFile s) fun bytes => .done s bytes

theorem execGetbytes_eq (s : State) : execGetbytes s = (needs s.eng.filev .getbytes s getbytesBody).finish := rfl
theorem execWrfile_eq (s : State) : execWrfile s = (needs s.eng.filev .wrfile s wrfileBody).finish := rfl
theorem execWrsink_eq (s : State) : execWrsink s = (needs s.eng.filev .wrsink s wrsinkBody).finish := rfl

/-- Everything WRFILE can do when a file is held, by what the open answers (R178, R179, R181). -/
theorem wrfileBody_cases {s : State} (hw : Memory.wf s) :
    (∃ f, wrfileBody s = .stop f ∧ s.eng.file.length < 62 + s.eng.pdlen.toNat) ∨
    ∃ u, CallFrame s u ∧ Memory.wf u ∧ (∀ ref, ref ≠ .named s.env.path → u.sink ref = s.sink ref) ∧
      ((∃ cause, wrfileBody s = .raised (.ioFailure cause) u ∧ (sinkOpen s.env.path s).1 = .fail 0 cause ∧
          u.sink (.named s.env.path) = s.sink (.named s.env.path)) ∨
        (wrfileBody s = .done u [] ∧ (sinkOpen s.env.path s).1 = .ok ∧ 62 + s.eng.pdlen.toNat ≤ s.eng.file.length ∧
          u.sink (.named s.env.path) =
            { isOpen := false, content := s.eng.file.take (62 + s.eng.pdlen.toNat) }) ∨
        (∃ k cause, wrfileBody s = .raised (.ioFailure cause) u ∧ (sinkOpen s.env.path s).1 = .ok ∧
          62 + s.eng.pdlen.toNat ≤ s.eng.file.length ∧ k ≤ 62 + s.eng.pdlen.toNat ∧
          (s.config.sinkAtomic = true → k = 0 ∨ k = 62 + s.eng.pdlen.toNat) ∧
          u.sink (.named s.env.path) =
            { isOpen := false, content := (s.eng.file.take (62 + s.eng.pdlen.toNat)).take k })) := by
  have f1 := sinkOpen_callFrame s.env.path s
  have w1 := sinkOpen_wf (p := s.env.path) hw
  unfold wrfileBody
  rcases sinkOpen_cases (p := s.env.path) hw with ⟨ha, h⟩ | ⟨cause, ha, h⟩
  · generalize hso : sinkOpen s.env.path s = a at *
    rw [ha]
    simp only [orIoFailure]
    have hh : heldFile a.2 = heldFile s := heldFile_congr f1.eng
    rw [hh]
    by_cases hle : 62 + s.eng.pdlen.toNat ≤ s.eng.file.length
    · rw [heldFile_of_le hle, ofExcept_ok]
      obtain ⟨u, fu, wu, hne, -, hc⟩ :=
        writeAndClose_cases (p := s.env.path) (bytes := s.eng.file.take (62 + s.eng.pdlen.toNat)) w1
      refine .inr ⟨u, f1.trans fu, wu, ?_, ?_⟩
      · intro ref hn
        rw [hne ref hn, h, if_neg hn]
      · have hlen : (s.eng.file.take (62 + s.eng.pdlen.toNat)).length = 62 + s.eng.pdlen.toNat := by simp; omega
        rcases hc with ⟨hd, hs⟩ | ⟨k, cause, hr, hk, hat, hs⟩
        · exact .inr (.inl ⟨hd, trivial, hle, by simp [hs, h]⟩)
        · rw [hlen] at hk hat
          rw [f1.config] at hat
          exact .inr (.inr ⟨k, cause, hr, trivial, hle, hk, hat, by simp [hs, h]⟩)
    · refine .inl ⟨.spaceRange, ?_, by omega⟩
      have : heldFile s = .error .spaceRange := if_neg (by simpa using hle)
      rw [this, ofExcept_error]
  · refine .inr ⟨(sinkOpen s.env.path s).2, f1, w1, fun ref _ => h ref, .inl ⟨cause, ?_, ha, h _⟩⟩
    rw [ha]
    rfl

/-- Everything WRSINK can do when a file is held (R180, R181). -/
theorem wrsinkBody_cases {s : State} :
    (∃ f, wrsinkBody s = .stop f ∧ s.eng.file.length < 62 + s.eng.pdlen.toNat) ∨
    (62 + s.eng.pdlen.toNat ≤ s.eng.file.length ∧
      ∃ u, CallFrame s u ∧ u.env.named = s.env.named ∧ u.env.stream.isOpen = s.env.stream.isOpen ∧
      ((wrsinkBody s = .done u [] ∧
          u.env.stream.content = s.env.stream.content ++ s.eng.file.take (62 + s.eng.pdlen.toNat)) ∨
        (∃ k cause, wrsinkBody s = .raised (.ioFailure cause) u ∧ k ≤ 62 + s.eng.pdlen.toNat ∧
          (s.config.sinkAtomic = true → k = 0) ∧
          u.env.stream.content =
            s.env.stream.content ++ (s.eng.file.take (62 + s.eng.pdlen.toNat)).take k))) := by
  unfold wrsinkBody
  by_cases hle : 62 + s.eng.pdlen.toNat ≤ s.eng.file.length
  · refine .inr ⟨hle, ?_⟩
    rw [heldFile_of_le hle, ofExcept_ok]
    have hlen : (s.eng.file.take (62 + s.eng.pdlen.toNat)).length = 62 + s.eng.pdlen.toNat := by simp; omega
    generalize s.eng.file.take (62 + s.eng.pdlen.toNat) = bytes at *
    refine ⟨(sinkWrite .stream bytes s).2, sinkWrite_callFrame _ _ _, ?_⟩
    have hc := (takeChoice_callFrame s).config
    have hstream : (takeChoice s).2.sink .stream = s.env.stream := by rw [takeChoice_sink]; rfl
    unfold sinkWrite
    dsimp only
    rw [hstream]
    split
    · rename_i ho
      split
      · exact ⟨takeChoice_named s, rfl, .inl ⟨rfl, rfl⟩⟩
      · refine ⟨takeChoice_named s, rfl, .inr ⟨takenBytes (takeChoice s).2.config (takeChoice s).1 bytes.length, (takeChoice s).1.cause,
          rfl, ?_, ?_, rfl⟩⟩
        · rw [← hlen]
          unfold takenBytes
          split
          · omega
          · exact Nat.min_le_right _ _
        · intro ha
          simp [takenBytes, hc, ha]
    · rename_i ho
      have hst : (takeChoice s).2.env.stream = s.env.stream := hstream
      exact ⟨takeChoice_named s, by rw [hst], .inr ⟨0, _, rfl, Nat.zero_le _, fun _ => rfl, by simp [hst]⟩⟩
  · refine .inl ⟨.spaceRange, ?_, by omega⟩
    have : heldFile s = .error .spaceRange := if_neg (by simpa using hle)
    rw [this, ofExcept_error]

/-- What WRFILE can do when a file is held, in any state: only its calls of the named sink change anything before the report. -/
theorem wrfileBody_frame (s : State) :
    (∃ f, wrfileBody s = .stop f) ∨
    ∃ u, CallFrame s u ∧ (wrfileBody s = .done u [] ∨ ∃ cause, wrfileBody s = .raised (.ioFailure cause) u) := by
  have f1 := sinkOpen_callFrame s.env.path s
  unfold wrfileBody
  generalize sinkOpen s.env.path s = a at *
  obtain ⟨a, t⟩ := a
  cases a with
  | fail k cause => exact .inr ⟨t, f1, .inr ⟨cause, rfl⟩⟩
  | ok =>
    simp only [orIoFailure]
    cases heldFile t with
    | error f => exact .inl ⟨f, rfl⟩
    | ok bytes =>
      rw [ofExcept_ok]
      have f2 := sinkWrite_callFrame (.named s.env.path) bytes t
      have f3 := sinkClose_callFrame (.named s.env.path) (sinkWrite (.named s.env.path) bytes t).2
      refine .inr ⟨(sinkClose (.named s.env.path) (sinkWrite (.named s.env.path) bytes t).2).2, (f1.trans f2).trans f3, ?_⟩
      have hdef : writeAndClose s.env.path bytes t =
          orIoFailure (sinkWrite (.named s.env.path) bytes t).1
            (sinkClose (.named s.env.path) (sinkWrite (.named s.env.path) bytes t).2).2 fun x =>
              orIoFailure (sinkClose (.named s.env.path) (sinkWrite (.named s.env.path) bytes t).2).1 x fun x => .done x [] := rfl
      rw [hdef]
      cases (sinkWrite (.named s.env.path) bytes t).1 with
      | fail k cause => exact .inr ⟨cause, rfl⟩
      | ok =>
        simp only [orIoFailure]
        cases (sinkClose (.named s.env.path) (sinkWrite (.named s.env.path) bytes t).2).1 with
        | fail k cause => exact .inr ⟨cause, rfl⟩
        | ok => exact .inl rfl

/-! ## The commands -/

@[simp] theorem takeError_eq (e : EngineError) (s : State) : takeError e s = s.respond (errorCode e) (errorInfo e) [] := rfl

/-- A command that needs a result ends with `SequenceError` or as its body ends. -/
theorem needs_finish {held : Bool} {i : Instr} {s t : State} {rest : State → Stage}
    (h : (needs held i s rest).finish = .next t) :
    (held = false ∧ t = takeError (.sequenceError (encodeCode i)) s) ∨ (held = true ∧ (rest s).finish = .next t) := by
  cases held with
  | false => exact .inl ⟨rfl, by simpa using h.symm⟩
  | true => exact .inr ⟨rfl, h⟩

theorem execPack_cases {s t : State} (h : execPack s = .next t) :
    (∃ d, validate s.config s.env.matrix = .ok d ∧ Validated s.config s.env.matrix d ∧
      t = (s.packed d).respond okCode (.word 0) []) ∨
    (∃ sub, validate s.config s.env.matrix = .error sub ∧
      t = takeError (.invalidDimension sub) s.clearValid.unspecify) := by
  unfold execPack at h
  rcases packStage_cases s with ⟨d, h1, h2, h3⟩ | ⟨sub, h1, h2⟩
  · rw [h3] at h
    exact .inl ⟨d, h1, h2, by simpa using h.symm⟩
  · rw [h2] at h
    exact .inr ⟨sub, h1, by simpa using h.symm⟩

theorem execBldhdr_cases {s t : State} (h : execBldhdr s = .next t) :
    (s.eng.pixv = false ∧ t = takeError (.sequenceError 0x02#8) s) ∨
    (s.eng.pixv = true ∧ 62 ≤ s.eng.hdr.length ∧ s.eng.pdlen.toNat ≤ 2 ^ 32 - 63 ∧
      t = (((s.clearFromHdr).setSpace .hdr (s.headerBytes ++ s.eng.hdr.drop 62)).setHdrv).respond okCode (.word 0) []) := by
  rcases finish_next h with ⟨u, data, hu, rfl⟩ | ⟨e, u, hu, rfl⟩
  · obtain ⟨h1, rfl, h2, h3, rfl⟩ := bldhdrStage_done hu
    exact .inr ⟨h1, h2, h3, rfl⟩
  · obtain ⟨h1, rfl, rfl⟩ := bldhdrStage_raised hu
    exact .inl ⟨h1, rfl⟩

theorem execAsm_cases {s t : State} (h : execAsm s = .next t) :
    ((s.eng.pixv && s.eng.hdrv) = false ∧ t = takeError (.sequenceError 0x03#8) s) ∨
    (s.eng.pixv = true ∧ s.eng.hdrv = true ∧ 62 ≤ s.eng.hdr.length ∧ s.eng.pdlen.toNat ≤ s.eng.pix.length ∧
      t = (((s.clearFile).setSpace .file (s.eng.hdr.take 62 ++ s.eng.pix.take s.eng.pdlen.toNat)).setFilev).respond
        okCode (.word 0) []) := by
  rcases finish_next h with ⟨u, data, hu, rfl⟩ | ⟨e, u, hu, rfl⟩
  · obtain ⟨h1, h2, rfl, h3, h4, rfl⟩ := asmStage_done hu
    exact .inr ⟨h1, h2, h3, h4, rfl⟩
  · obtain ⟨h1, rfl, rfl⟩ := asmStage_raised hu
    exact .inl ⟨h1, rfl⟩

theorem Validated.pdlen {cfg : Config} {m : Matrix} {d : Dims} (v : Validated cfg m d) (s : State) :
    (s.packed d).eng.pdlen.toNat = d.n := toNat_toWord v.n_le_dimMax

/-- The header after a successful PACK is that of the matrix. -/
theorem packed_headerBytes {s : State} {d : Dims} {cfg : Config} {m : Matrix} (v : Validated cfg m d) :
    (s.packed d).headerBytes = headerTemplate d.w d.h d.n := by
  show headerTemplate (toWord d.w).toNat (toWord d.h).toNat (toWord d.n).toNat = _
  rw [toNat_toWord v.w_le, toNat_toWord v.h_le, toNat_toWord v.n_le_dimMax]

/-- The state at the end of ENCODE's pseudocode; past its 62 bytes `HDR` is as before (nothing, where the
invariant holds). -/
def State.encoded (s : State) (d : Dims) : State :=
  ((((s.packed d).clearFromHdr.setSpace .hdr (headerTemplate d.w d.h d.n ++ s.eng.hdr.drop 62)).setHdrv.clearFile).setSpace .file
    (headerTemplate d.w d.h d.n ++ pixelData s.config s.env.matrix d)).setFilev

@[simp] theorem encoded_width (s : State) (d : Dims) : (s.encoded d).eng.width = toWord d.w := rfl
@[simp] theorem encoded_height (s : State) (d : Dims) : (s.encoded d).eng.height = toWord d.h := rfl
@[simp] theorem encoded_bpr (s : State) (d : Dims) : (s.encoded d).eng.bpr = toWord d.bpr := rfl
@[simp] theorem encoded_pdlen (s : State) (d : Dims) : (s.encoded d).eng.pdlen = toWord d.n := rfl
@[simp] theorem encoded_pix (s : State) (d : Dims) : (s.encoded d).eng.pix = pixelData s.config s.env.matrix d := rfl
@[simp] theorem encoded_hdr (s : State) (d : Dims) : (s.encoded d).eng.hdr = headerTemplate d.w d.h d.n ++ s.eng.hdr.drop 62 := rfl
@[simp] theorem encoded_file (s : State) (d : Dims) : (s.encoded d).eng.file = headerTemplate d.w d.h d.n ++ pixelData s.config s.env.matrix d := rfl
@[simp] theorem encoded_pixv (s : State) (d : Dims) : (s.encoded d).eng.pixv = true := rfl
@[simp] theorem encoded_hdrv (s : State) (d : Dims) : (s.encoded d).eng.hdrv = true := rfl
@[simp] theorem encoded_filev (s : State) (d : Dims) : (s.encoded d).eng.filev = true := rfl
@[simp] theorem encoded_err (s : State) (d : Dims) : (s.encoded d).eng.err = s.eng.err := rfl
@[simp] theorem encoded_errinfo (s : State) (d : Dims) : (s.encoded d).eng.errinfo = s.eng.errinfo := rfl
@[simp] theorem encoded_env (s : State) (d : Dims) : (s.encoded d).env = s.env := rfl
@[simp] theorem encoded_port (s : State) (d : Dims) : (s.encoded d).port = s.port := rfl
@[simp] theorem encoded_config (s : State) (d : Dims) : (s.encoded d).config = s.config := rfl
@[simp] theorem encoded_freeCtr (s : State) (d : Dims) : (s.encoded d).freeCtr = s.freeCtr := rfl

/-- The three stages of a validated matrix run through (R172). -/
theorem encodeStages_ok {s : State} {d : Dims} (h : validate s.config s.env.matrix = .ok d) (hl : 62 ≤ s.eng.hdr.length) :
    ((packStage s).andThen bldhdrStage).andThen asmStage = .done (s.encoded d) [] := by
  have v := validate_ok h
  have hn := v.pdlen s
  have hle := v.n_le
  simp only [hdrLen, dimMax] at hle
  have hb := bldhdrStage_run (s := s.packed d) rfl hl (by omega)
  have hlen : (pixelData s.config s.env.matrix d).length = d.n := pixelData_length _ _ _
  rw [packStage_ok h, andThen_done, hb, andThen_done, packed_headerBytes v]
  have ha := asmStage_run
    (s := ((s.packed d).clearFromHdr.setSpace .hdr (headerTemplate d.w d.h d.n ++ s.eng.hdr.drop 62)).setHdrv) rfl
    (by simp) (by
      show (s.packed d).eng.pdlen.toNat ≤ (pixelData s.config s.env.matrix d).length
      omega)
  refine ha.trans ?_
  have e1 : (headerTemplate d.w d.h d.n ++ s.eng.hdr.drop 62).take 62 = headerTemplate d.w d.h d.n := List.take_left' rfl
  have e2 : (pixelData s.config s.env.matrix d).take (s.packed d).eng.pdlen.toNat = pixelData s.config s.env.matrix d :=
    List.take_of_length_le (by omega)
  show Stage.done (State.setFilev (State.setSpace _ .file
    ((headerTemplate d.w d.h d.n ++ s.eng.hdr.drop 62).take 62 ++
      (pixelData s.config s.env.matrix d).take (s.packed d).eng.pdlen.toNat))) [] = _
  rw [e1, e2]
  rfl

/-- Everything ENCODE can do (R172). -/
theorem execEncode_cases {s t : State} (h : execEncode s = .next t) :
    (∃ d, validate s.config s.env.matrix = .ok d ∧ Validated s.config s.env.matrix d ∧ 62 ≤ s.eng.hdr.length ∧
      t = (s.encoded d).respond okCode (.word 0) []) ∨
    (∃ sub, validate s.config s.env.matrix = .error sub ∧
      t = takeError (.invalidDimension sub) s.clearValid.unspecify) := by
  unfold execEncode at h
  rcases packStage_cases s with ⟨d, h1, v, h3⟩ | ⟨sub, h1, h2⟩
  · have hl : 62 ≤ s.eng.hdr.length := by
      rw [h3, andThen_done] at h
      cases hb : bldhdrStage (s.packed d) with
      | done u data =>
        obtain ⟨-, -, hl, -⟩ := bldhdrStage_done hb
        exact hl
      | raised e u => exact absurd (bldhdrStage_raised hb).1 (by simp [State.packed])
      | stop f =>
        rw [hb] at h
        cases h
    rw [encodeStages_ok h1 hl] at h
    exact .inl ⟨d, h1, v, hl, by simpa using h.symm⟩
  · rw [h2] at h
    exact .inr ⟨sub, h1, by simpa using h.symm⟩

theorem execGetbytes_cases {s t : State} (h : execGetbytes s = .next t) :
    (s.eng.filev = false ∧ t = takeError (.sequenceError 0x05#8) s) ∨
    (s.eng.filev = true ∧ 62 + s.eng.pdlen.toNat ≤ s.eng.file.length ∧
      t = s.respond okCode (.word 0) (s.eng.file.take (62 + s.eng.pdlen.toNat))) := by
  rw [execGetbytes_eq] at h
  rcases needs_finish h with ⟨hf, rfl⟩ | ⟨hf, h⟩
  · exact .inl ⟨hf, rfl⟩
  · rcases finish_next h with ⟨u, data, hu, rfl⟩ | ⟨e, u, hu, rfl⟩
    · obtain ⟨bytes, hb, hd⟩ := ofExcept_done hu
      obtain ⟨h1, rfl⟩ := heldFile_ok hb
      simp only [Stage.done.injEq] at hd
      obtain ⟨rfl, rfl⟩ := hd
      exact .inr ⟨hf, h1, rfl⟩
    · obtain ⟨bytes, hb, hd⟩ := ofExcept_raised hu
      cases hd

/-- Everything WRFILE can do to the parts of the state that are not its sink. -/
theorem execWrfile_cases {s t : State} (h : execWrfile s = .next t) :
    (s.eng.filev = false ∧ t = takeError (.sequenceError 0x06#8) s) ∨
    (s.eng.filev = true ∧ ∃ u, CallFrame s u ∧
      ((wrfileBody s = .done u [] ∧ t = u.respond okCode (.word 0) []) ∨
        ∃ cause, wrfileBody s = .raised (.ioFailure cause) u ∧ t = takeError (.ioFailure cause) u)) := by
  rw [execWrfile_eq] at h
  rcases needs_finish h with ⟨hf, rfl⟩ | ⟨hf, h⟩
  · exact .inl ⟨hf, rfl⟩
  · refine .inr ⟨hf, ?_⟩
    rcases wrfileBody_frame s with ⟨f, h1⟩ | ⟨u, fr, h1 | ⟨cause, h1⟩⟩
    · rw [h1] at h
      cases h
    · rw [h1] at h
      exact ⟨u, fr, .inl ⟨h1, by simpa using h.symm⟩⟩
    · rw [h1] at h
      exact ⟨u, fr, .inr ⟨cause, h1, by simpa using h.symm⟩⟩

/-- Everything WRSINK can do. -/
theorem execWrsink_cases {s t : State} (h : execWrsink s = .next t) :
    (s.eng.filev = false ∧ t = takeError (.sequenceError 0x07#8) s) ∨
    (s.eng.filev = true ∧ ∃ u, CallFrame s u ∧ u.env.named = s.env.named ∧
      ((wrsinkBody s = .done u [] ∧ t = u.respond okCode (.word 0) []) ∨
        ∃ cause, wrsinkBody s = .raised (.ioFailure cause) u ∧ t = takeError (.ioFailure cause) u)) := by
  rw [execWrsink_eq] at h
  rcases needs_finish h with ⟨hf, rfl⟩ | ⟨hf, h⟩
  · exact .inl ⟨hf, rfl⟩
  · refine .inr ⟨hf, ?_⟩
    rcases wrsinkBody_cases (s := s) with ⟨f, h1, -⟩ | ⟨-, u, fr, hn, -, ⟨h1, -⟩ | ⟨k, cause, h1, -⟩⟩
    · rw [h1] at h
      cases h
    · rw [h1] at h
      exact ⟨u, fr, hn, .inl ⟨h1, by simpa using h.symm⟩⟩
    · rw [h1] at h
      exact ⟨u, fr, hn, .inr ⟨cause, h1, by simpa using h.symm⟩⟩

/-- The one thing DISCARD can do (R183). -/
theorem execDiscard_eq (s : State) : execDiscard s = .next (s.clearValid.unspecify.respond okCode (.word 0) []) := rfl

/-! ## Sinks and responses -/

@[simp] theorem respond_sink (s : State) (code : Byte) (info : Info) (data : List Byte) (ref : SinkRef) :
    (s.respond code info data).sink ref = s.sink ref := by cases ref <;> rfl

/-- The form of the lists depends on `HDR` and the named sinks only. -/
theorem wf_congr {s t : State} (h1 : t.eng.hdr.length = s.eng.hdr.length) (h2 : t.env.named = s.env.named) :
    Memory.wf s → Memory.wf t := by
  rintro ⟨a, b, c⟩
  exact ⟨h1.trans a, h2 ▸ b, h2 ▸ c⟩

end Sys2Proof.Machine
end

