-- ==== Sys2Proof/Laws/Invariant.lean ====
section
/-! SUPPORT. How the parts of a command keep the parts of the invariant: one lemma for each part. -/

namespace Sys2Proof.Machine

/-! ## Legal reports (R34, R190) -/

theorem report_ok : reportLegal okCode (.word 0) := .inl ⟨rfl, rfl⟩

theorem report_dimension (sub : SubCause) :
    reportLegal (errorCode (.invalidDimension sub)) (errorInfo (.invalidDimension sub)) :=
  .inr (.inl ⟨rfl, subCauseNumber sub, by cases sub <;> decide, by cases sub <;> decide, rfl⟩)

theorem report_ioFailure (cause : Cause) : reportLegal (errorCode (.ioFailure cause)) (errorInfo (.ioFailure cause)) :=
  .inr (.inr (.inl ⟨rfl, cause, rfl⟩))

theorem report_illegal {code : Byte} (h : legalCode code = false) :
    reportLegal (errorCode (.illegalCommand code)) (errorInfo (.illegalCommand code)) :=
  .inr (.inr (.inr (.inl ⟨rfl, code, h, rfl⟩)))

theorem report_sequence {code : Byte} (h : code ∈ [0x02#8, 0x03#8, 0x05#8, 0x06#8, 0x07#8]) :
    reportLegal (errorCode (.sequenceError code)) (errorInfo (.sequenceError code)) :=
  .inr (.inr (.inr (.inr ⟨rfl, code, h, rfl⟩)))

/-! ## The registers and `PIX` -/

/-- The closed form has zeros in every padding position (R129). -/
theorem pixelData_paddingZero {cfg : Config} {m : Matrix} {d : Dims} (v : Validated cfg m d) :
    PaddingZero (pixelData cfg m d) d.w d.h d.bpr := by
  intro line j k hl hj hk hw b hb
  rw [pixelData_get _ _ _ v.n_eq hl hj] at hb
  injection hb with hb
  subst hb
  rw [pixelByte, laneOr_getLsbD _ _ _ _ _ _ _ (by omega) (by omega)]
  have : ¬ (8 * j + (7 - (7 - k)) < d.w) := by omega
  simp [this]

theorem packed_packedInv {s : State} {d : Dims} (v : Validated s.config s.env.matrix d) : PackedInv (s.packed d) := by
  have hle := v.n_le
  simp only [hdrLen, dimMax] at hle
  constructor <;>
    simp only [packed_bpr, packed_width, packed_height, packed_pdlen, packed_pix, packed_config, toNat_toWord v.w_le,
      toNat_toWord v.h_le, toNat_toWord v.bpr_le, toNat_toWord v.n_le_dimMax]
  · exact v.bpr_eq
  · exact v.n_eq
  · omega
  · exact v.n_cap
  · exact pixelData_length _ _ _
  · exact pixelData_paddingZero v

/-- `PackedInv` reads the four registers, `PIX` and the parameters only. -/
theorem packedInv_congr {s t : State} (h : PackedInv s) (hw : t.eng.width = s.eng.width) (hh : t.eng.height = s.eng.height)
    (hb : t.eng.bpr = s.eng.bpr) (hn : t.eng.pdlen = s.eng.pdlen) (hp : t.eng.pix = s.eng.pix)
    (hc : t.config = s.config) : PackedInv t := by
  constructor <;> simp only [hw, hh, hb, hn, hp, hc]
  exacts [h.1, h.2, h.3, h.4, h.5, h.6]

/-! ## The parts of a command -/

/-- The invariant reads the engine, the parameters and the form of the lists only. -/
theorem inv_congr {s t : State} (h : s.Inv) (he : t.eng = s.eng) (hc : t.config = s.config) (hw : Memory.wf t) : t.Inv where
  config_wf := by rw [hc]; exact h.config_wf
  mem_wf := hw
  file_needs := by rw [he]; exact h.file_needs
  hdr_needs := by rw [he]; exact h.hdr_needs
  packed hp := packedInv_congr (h.packed (by rwa [he] at hp)) (by rw [he]) (by rw [he]) (by rw [he]) (by rw [he]) (by rw [he]) hc
  header := by rw [he]; exact h.header
  file := by rw [he]; exact h.file
  report := by rw [he]; exact h.report

theorem respond_inv {s : State} (h : s.Inv) {code : Byte} {info : Info} (data : List Byte) (hr : reportLegal code info) :
    (s.respond code info data).Inv where
  config_wf := h.config_wf
  mem_wf := h.mem_wf
  file_needs := h.file_needs
  hdr_needs := h.hdr_needs
  packed hp := packedInv_congr (h.packed hp) rfl rfl rfl rfl rfl rfl
  header := h.header
  file := h.file
  report := hr

/-- The invariant says nothing of registers and buffers while the flags are clear, so it holds whatever the free values are. -/
theorem unspecify_inv {s : State} (h : s.Inv) : s.clearValid.unspecify.Inv :=
  ⟨h.config_wf, ⟨by simp, h.mem_wf.2⟩, by simp, by simp, by simp, by simp, by simp, h.report⟩

theorem packed_inv {s : State} (h : s.Inv) {d : Dims} (v : Validated s.config s.env.matrix d) : (s.packed d).Inv :=
  ⟨h.config_wf, h.mem_wf, by simp, by simp, fun _ => packed_packedInv v, by simp, by simp, h.report⟩

theorem withHeader_inv {s : State} (h : s.Inv) (hp : s.eng.pixv = true) :
    (((s.clearFromHdr).setSpace .hdr (s.headerBytes ++ s.eng.hdr.drop 62)).setHdrv).Inv := by
  rw [List.drop_eq_nil_of_le (by rw [h.mem_wf.1]), List.append_nil]
  exact ⟨h.config_wf, ⟨rfl, h.mem_wf.2⟩, by simp, fun _ => hp,
    fun _ => packedInv_congr (h.packed hp) rfl rfl rfl rfl rfl rfl, fun _ => rfl, by simp, h.report⟩

theorem assembled_inv {s : State} (h : s.Inv) (hp : s.eng.pixv = true) (hh : s.eng.hdrv = true) :
    (((s.clearFile).setSpace .file (s.eng.hdr.take 62 ++ s.eng.pix.take s.eng.pdlen.toNat)).setFilev).Inv := by
  rw [List.take_of_length_le (by rw [h.mem_wf.1]), List.take_of_length_le (by rw [(h.packed hp).pix_length])]
  exact ⟨h.config_wf, h.mem_wf, fun _ => ⟨hh, hp⟩, fun _ => hp,
    fun _ => packedInv_congr (h.packed hp) rfl rfl rfl rfl rfl rfl, h.header, fun _ => rfl, h.report⟩

theorem encoded_inv {s : State} (h : s.Inv) {d : Dims} (v : Validated s.config s.env.matrix d) : (s.encoded d).Inv := by
  have hd : s.eng.hdr.drop 62 = [] := List.drop_eq_nil_of_le (by rw [h.mem_wf.1])
  refine ⟨h.config_wf, ⟨by simp [hd], h.mem_wf.2⟩, by simp, by simp, fun _ => ?_, fun _ => ?_, fun _ => ?_, h.report⟩
  · exact packedInv_congr (packed_packedInv v) (by simp) (by simp) (by simp) (by simp) (by simp) (by simp)
  · simp [hd, toNat_toWord v.w_le, toNat_toWord v.h_le, toNat_toWord v.n_le_dimMax]
  · simp [hd]

/-- Sink calls keep the invariant. -/
theorem callFrame_inv {s u : State} (h : s.Inv) (fr : CallFrame s u) (hw : Memory.wf u) : u.Inv :=
  inv_congr h fr.eng fr.config hw

/-- Where a file is held, the space `FILE` has all its bytes. -/
theorem file_length {s : State} (h : s.Inv) (hf : s.eng.filev = true) : s.eng.file.length = 62 + s.eng.pdlen.toNat := by
  have hp := h.packed (h.file_needs hf).2
  rw [h.file hf, List.length_append, h.mem_wf.1, hp.pix_length]

end Sys2Proof.Machine
end

