-- ==== Sys2Proof/Laws/PerInstr.lean ====
section
/-! SUPPORT. Statements made for each command: what R100 to R103 of `30_encoding.md` say of a command as syntax. -/

namespace Sys2Proof.Laws

/-- A command has no field that could be out of range, its code is legal, and it is exactly one byte long (R100, R103). -/
def OneLegalByte.Statement (i : Instr) : Prop :=
  i.wf = true ∧ legalCode (encodeCode i) = true ∧ encode i = [encodeCode i]

theorem OneLegalByte.pack : OneLegalByte.Statement .pack := ⟨rfl, by decide, rfl⟩
theorem OneLegalByte.bldhdr : OneLegalByte.Statement .bldhdr := ⟨rfl, by decide, rfl⟩
theorem OneLegalByte.asm : OneLegalByte.Statement .asm := ⟨rfl, by decide, rfl⟩
theorem OneLegalByte.encode : OneLegalByte.Statement .encode := ⟨rfl, by decide, rfl⟩
theorem OneLegalByte.getbytes : OneLegalByte.Statement .getbytes := ⟨rfl, by decide, rfl⟩
theorem OneLegalByte.wrfile : OneLegalByte.Statement .wrfile := ⟨rfl, by decide, rfl⟩
theorem OneLegalByte.wrsink : OneLegalByte.Statement .wrsink := ⟨rfl, by decide, rfl⟩
theorem OneLegalByte.discard : OneLegalByte.Statement .discard := ⟨rfl, by decide, rfl⟩

end Sys2Proof.Laws
end

