-- ==== Sys2Proof/Tests/Slice0.lean ====
section
/-! SUPPORT. Tests of single steps, with results taken from `spec/95_test_vectors.md` and the table of R100, and for each
statement with premises a witness that meets them all. -/

namespace Sys2Proof.Tests

open Machine

/-! ## Small states -/

/-- After reset, with a matrix presented. -/
def withMatrix (m : Matrix) : State := { State.reset with env := { State.reset.env with matrix := m } }

/-- The 1×1 matrix of scenario S1. -/
def oneDot : Matrix := { width := 1, rows := [[1]] }

/-- The 3×2 matrix of vector V13. -/
def threeByTwo : Matrix := { width := 3, rows := [[1, 0, 1], [0, 1, 1]] }

/-- A ragged matrix: row lengths 3 and 2 (V3). -/
def ragged : Matrix := { width := 3, rows := [[1, 0, 1], [1, 0]] }

/-- A state that holds the file of scenario S1, with the bytes as S1 writes them. -/
def held : State :=
  { withMatrix oneDot with
    eng :=
      { State.reset.eng with
        width := 1, height := 1, bpr := 4, pdlen := 4
        pix := [0x80#8, 0, 0, 0]
        hdr := headerTemplate 1 1 4
        file := headerTemplate 1 1 4 ++ [0x80#8, 0, 0, 0]
        pixv := true, hdrv := true, filev := true } }

/-- `held` with these choices of the sinks to come. -/
def heldWith (choices : List SinkChoice) : State := { held with env := { held.env with choices := choices } }

/-- A state that holds no file, with these choices of the sinks to come. -/
def emptyWith (choices : List SinkChoice) : State :=
  { State.reset with env := { State.reset.env with choices := choices } }

/-- `heldWith` with `STREAM` open and holding `AA` (V16). -/
def streaming (choices : List SinkChoice) : State :=
  { held with env := { held.env with choices := choices, stream := { isOpen := true, content := [0xAA#8] } } }

/-- A sink choice. -/
def answers (accept : Bool) (taken cause : Nat) : SinkChoice := { accept := accept, taken := taken, cause := ⟨cause⟩ }

/-- A state with this event next. -/
def upNext (e : HostEvent) (s : State) : State := { s with port := { s.port with script := [e] } }

/-- What a field of the next state is, `none` if there is no next state. -/
def after {α : Type} (o : Host.Outcome State Fault Refusal) (f : State → α) : Option α :=
  match o with
  | .next t => some (f t)
  | .fault _ => none
  | .refused _ => none

/-- The flags, in the order of V15. -/
def flags (s : State) : Bool × Bool × Bool := (s.eng.pixv, s.eng.hdrv, s.eng.filev)

/-! ## WellFormed: ill-formed terms are refused -/

theorem test_wf_code_zero : legalCode 0x00#8 = false := by decide
theorem test_wf_code_nine : legalCode 0x09#8 = false := by decide
theorem test_wf_code_last : legalCode 0xFF#8 = false := by decide
theorem test_wf_codes_first_last : legalCode 0x01#8 = true ∧ legalCode 0x08#8 = true := by decide
theorem test_wf_config_no_cell_bits : Config.wf { cellw := 0, pixcap := 8, sinkAtomic := false } = false := by decide
theorem test_wf_choice_takes_too_much :
    (answers false 5 0).legalFor { cellw := 1, pixcap := 8, sinkAtomic := false } 4 = false := by decide
theorem test_wf_choice_atomic_takes_some :
    (answers false 1 0).legalFor { cellw := 1, pixcap := 8, sinkAtomic := true } 4 = false := by decide
theorem test_wf_every_instr (i : Instr) : i.wf = true := by cases i <;> rfl

/-! ## Decoding: the codes of R100, bit by bit -/

theorem test_decode_pack : decode [0b00000001#8, 0x02#8] = .ok (.pack, [0x02#8]) := by rfl
theorem test_decode_bldhdr : decode [0b00000010#8] = .ok (.bldhdr, []) := by rfl
theorem test_decode_asm : decode [0b00000011#8] = .ok (.asm, []) := by rfl
theorem test_decode_encode : decode [0b00000100#8] = .ok (.encode, []) := by rfl
theorem test_decode_getbytes : decode [0b00000101#8] = .ok (.getbytes, []) := by rfl
theorem test_decode_wrfile : decode [0b00000110#8] = .ok (.wrfile, []) := by rfl
theorem test_decode_wrsink : decode [0b00000111#8] = .ok (.wrsink, []) := by rfl
theorem test_decode_discard : decode [0b00001000#8] = .ok (.discard, []) := by rfl
theorem test_decode_zero : decode [0x00#8] = .error (.illegalCode 0x00#8) := by rfl
theorem test_decode_nine : decode [0x09#8] = .error (.illegalCode 0x09#8) := by rfl
theorem test_decode_high_bit : decode [0b10000001#8] = .error (.illegalCode 0x81#8) := by rfl
theorem test_decode_nothing : decode [] = .error .noByte := by rfl
theorem test_table_word : decodeTableWord 8 7 = some .wrsink ∧ decodeTableWord 8 9 = none := by decide

/-- No two rows of the opcode table overlap. -/
theorem test_table_rows_disjoint :
    opcodeTable.Pairwise fun a b => a.pattern &&& (a.mask &&& b.mask) ≠ b.pattern &&& (a.mask &&& b.mask) := by decide

/-- `withFetchWord` puts the command where the next step takes it. -/
theorem test_withFetchWord_runs :
    after (step (held.withFetchWord 8 8)) (fun t => (flags t, t.port.script)) = some ((false, false, false), []) := by rfl

/-! ## Single steps -/

/-- V13: row 0 packs to `A0`, row 1 to `60`; row 1 is stored first. -/
theorem test_pack_reverses_rows :
    after (exec .pack (withMatrix threeByTwo)) (·.eng.pix) = some [0x60#8, 0, 0, 0, 0xA0#8, 0, 0, 0] := by rfl

/-- V11: cell values `FE FF 02 03` have the dots `0 1 0 1`. -/
theorem test_pack_masks_cells :
    after (exec .pack (withMatrix { width := 4, rows := [[0xFE, 0xFF, 0x02, 0x03]] })) (·.eng.pix) =
      some [0x50#8, 0, 0, 0] := by rfl

/-- V15: a stage started again clears what follows. -/
theorem test_bldhdr_clears_filev : after (exec .bldhdr held) flags = some (true, true, false) := by rfl

/-- V15: after reset BLDHDR answers `(4, 2)`. -/
theorem test_bldhdr_needs_pixv :
    after (exec .bldhdr State.reset) (·.port.responses) = some [⟨4, .word 2, []⟩] := by rfl

/-- V12: the second triple, the bytes of the image size and the height. -/
theorem test_buildHeaders_fields :
    (headerTemplate 4294967295 7 3758096384).drop 18 =
      [0xFF#8, 0xFF#8, 0xFF#8, 0xFF#8, 0x07#8, 0, 0, 0, 0x01#8, 0, 0x01#8, 0, 0, 0, 0, 0, 0, 0, 0, 0xE0#8] ++
      [0xC4#8, 0x0E#8, 0, 0, 0xC4#8, 0x0E#8, 0, 0, 0, 0, 0, 0, 0, 0, 0, 0, 0, 0, 0, 0, 0xFF#8, 0xFF#8, 0xFF#8, 0] := by
  rfl

/-- R170: the pixel data stand at offset 62. -/
theorem test_asm_places_pixels :
    after (exec .asm { held with eng := { held.eng with file := [], filev := false } }) (·.eng.file.drop 58) =
      some [0xFF#8, 0xFF#8, 0xFF#8, 0, 0x80#8, 0, 0, 0] := by rfl

/-- V15: ASM with `HDRV = 0` answers `(4, 3)`. -/
theorem test_asm_needs_hdrv :
    after (exec .asm { held with eng := { held.eng with hdrv := false } }) (·.port.responses) =
      some [⟨4, .word 3, []⟩] := by rfl

/-- V13: the whole file of the 3×2 matrix. -/
theorem test_encode_whole_file :
    after (exec .encode (withMatrix threeByTwo)) (·.eng.file) =
      some
        ([0x42#8, 0x4D#8, 0x46#8, 0, 0, 0, 0, 0, 0, 0, 0x3E#8, 0, 0, 0] ++
          [0x28#8, 0, 0, 0, 0x03#8, 0, 0, 0, 0x02#8, 0, 0, 0, 0x01#8, 0, 0x01#8, 0] ++
          [0, 0, 0, 0, 0x08#8, 0, 0, 0, 0xC4#8, 0x0E#8, 0, 0, 0xC4#8, 0x0E#8, 0, 0] ++
          [0, 0, 0, 0, 0, 0, 0, 0] ++ [0, 0, 0, 0, 0xFF#8, 0xFF#8, 0xFF#8, 0] ++
          [0x60#8, 0, 0, 0, 0xA0#8, 0, 0, 0]) := by rfl

/-- P3: ENCODE of a ragged matrix answers `(1, 3)`. -/
theorem test_encode_ragged :
    after (exec .encode (withMatrix ragged)) (fun t => (flags t, t.port.responses)) =
      some ((false, false, false), [⟨1, .word 3, []⟩]) := by rfl

/-- P1: the data of GETBYTES end with the pixel data of S1 and are 66 bytes long. -/
theorem test_getbytes_data :
    after (exec .getbytes held) (fun t => t.port.responses.map fun r => (r.code, r.data.length, r.data.drop 62)) =
      some [(0, 66, [0x80#8, 0, 0, 0])] := by rfl

/-- V16: the open answers `Ok`, the write `Fail(10, c2)`, the close `Ok`. -/
theorem test_wrfile_partial_write :
    after (exec .wrfile (heldWith [answers true 0 0, answers false 10 2, answers true 0 0]))
        (fun t => (t.env.named, t.eng.errinfo)) =
      some ([(0, ⟨false, [0x42#8, 0x4D#8, 0x42#8, 0, 0, 0, 0, 0, 0, 0]⟩)], .cause ⟨2⟩) := by rfl

/-- V16: of two failures the write's is reported. -/
theorem test_wrfile_first_failure :
    after (exec .wrfile (heldWith [answers true 0 0, answers false 5 5, answers false 0 6]))
        (fun t => (t.env.named.map (·.2.isOpen), t.eng.err, t.eng.errinfo)) =
      some ([false], 2, .cause ⟨5⟩) := by rfl

/-- V16: WRSINK appends to an open `STREAM` and leaves it open. -/
theorem test_wrsink_appends :
    after (exec .wrsink (streaming [answers true 0 0])) (fun t => (t.env.stream.isOpen, t.env.stream.content.take 3)) =
      some (true, [0xAA#8, 0x42#8, 0x4D#8]) := by rfl

/-- V16: `STREAM` is not open. -/
theorem test_wrsink_not_open :
    after (exec .wrsink (heldWith [answers true 0 7])) (fun t => (t.env.stream.content, t.eng.err, t.eng.errinfo)) =
      some ([], 2, .cause ⟨7⟩) := by rfl

/-- R183: DISCARD clears the flags and answers `(0, 0)`. -/
theorem test_discard_clears :
    after (exec .discard held) (fun t => (flags t, t.port.responses)) =
      some ((false, false, false), [⟨0, .word 0, []⟩]) := by rfl

/-- V15: code `0x09` answers `(3, 9)` and changes no flag. -/
theorem test_illegal_code :
    after (step (upNext (.command 0x09#8) held)) (fun t => (flags t, t.port.responses)) =
      some ((true, true, true), [⟨3, .word 9, []⟩]) := by rfl

/-- V4, row 10: `HEIGHT = 3`, `BPR = 8`, `r = 0`, `c = 32` gives offset 20, bit 7. -/
theorem test_setdot_offset : dotOffset 3 8 0 32 = 20 ∧ dotPos 32 = 7 := by decide

/-- V1 and V2. -/
theorem test_rowBytes :
    [0, 1, 8, 9, 31, 32, 33, 64, 65, 100].map rowBytes = [0, 4, 4, 4, 4, 4, 8, 8, 12, 16] ∧
    pixelDataLength 4294967295 7 = 3758096384 := by decide

/-- V3: `PIXCAP = 8` takes a 1×2 matrix and not a 1×3 one. -/
theorem test_validate_capacity :
    validate { cellw := 8, pixcap := 8, sinkAtomic := false } { width := 1, rows := [[0], [0]] } = .ok ⟨1, 2, 4, 8⟩ ∧
    validate { cellw := 8, pixcap := 8, sinkAtomic := false } { width := 1, rows := [[0], [0], [0]] } =
      .error .capacity := by decide

/-! ## Witnesses: for each statement with premises, a state and operands that meet them all -/

theorem padding_held : PaddingZero [0x80#8, 0, 0, 0] 1 1 4 := by
  intro line j k hl hj hk hw b hb
  obtain rfl : line = 0 := by omega
  interval_cases j <;> interval_cases k <;> first | omega | (obtain rfl := Option.some.inj hb; decide)

/-- `held` meets the invariant. -/
theorem held_inv : held.Inv :=
  ⟨by decide, ⟨by rfl, by decide, by simp [held, withMatrix, State.reset]⟩, fun _ => ⟨rfl, rfl⟩, fun _ => rfl,
    fun _ => ⟨by decide, by decide, by decide, by decide, by rfl, padding_held⟩, fun _ => rfl, fun _ => rfl, .inl ⟨rfl, rfl⟩⟩

/-- So does `held` with other choices, another `STREAM` or another script. -/
theorem held_inv_env (choices : List SinkChoice) (stream : Sink) (script : List HostEvent) :
    State.Inv
      { held with
        env := { held.env with choices := choices, stream := stream }
        port := { held.port with script := script } } :=
  inv_congr held_inv rfl rfl held_inv.mem_wf

theorem emptyWith_wf (choices : List SinkChoice) : Memory.wf (emptyWith choices) :=
  ⟨by rfl, by simp [emptyWith, State.reset], by simp [emptyWith, State.reset]⟩

theorem held_readable : FileReadable held := by
  unfold FileReadable
  decide

theorem witness_DecodeEncodeAgree : Instr.wf .pack = true ∧ Instr.wf .discard = true := by decide

theorem witness_StepRunsDecodedCommand :
    (upNext (.command 0x01#8) held).port.script = [.command 0x01#8] ∧ decode [0x01#8] = .ok (.pack, []) ∧
    (upNext (.command 0x08#8) held).port.script = [.command 0x08#8] ∧ decode [0x08#8] = .ok (.discard, []) :=
  ⟨rfl, rfl, rfl, rfl⟩

theorem witness_IllegalCodeChangesOnlyReport :
    ∀ code ∈ [0x00#8, 0x09#8, 0xFF#8],
      (upNext (.command code) held).port.script = [.command code] ∧ (code = 0x00#8 ∨ 0x09#8 ≤ code) := by decide

theorem witness_IdleEngineHoldsState : held.port.script = [] := rfl

/-- One witness for each of the four actions. -/
theorem witness_HostActionsLeaveEngineAlone :
    ∀ e ∈ [HostEvent.presentMatrix ragged, .holdPath ⟨3⟩, .sinkChoices [answers true 0 0], .setSink (.named ⟨3⟩) ⟨true, []⟩],
      (upNext e held).port.script = [e] ∧ Memory.wf (upNext e held) :=
  fun _ _ => ⟨rfl, held_inv.mem_wf⟩

theorem witness_OneResponsePerCommand :
    (∃ t, exec .getbytes held = .next t ∧ t.port.responses.map (fun r => r.data.length) = [66]) ∧
    (∃ t, exec .wrfile held = .next t) ∧ ∃ t, exec .discard held = .next t :=
  ⟨⟨_, rfl, rfl⟩, by
    obtain ⟨f, h⟩ | ⟨u, -, h | ⟨c, h⟩⟩ := wrfileBody_frame held
    · rcases wrfileBody_cases held_inv.mem_wf with ⟨-, -, h1⟩ | ⟨u, -, -, -, ⟨c, h1, -⟩ | ⟨h1, -⟩ | ⟨k, c, h1, -⟩⟩
      · exact absurd h1 (by decide)
      all_goals rw [h] at h1; cases h1
    · exact ⟨_, congrArg Stage.finish h⟩
    · exact ⟨_, congrArg Stage.finish h⟩, ⟨_, rfl⟩⟩

/-- The premises of the clause on the least multiple, at `w = 0`, 9 and 33. -/
theorem witness_RowBytesIsLeastMultiple :
    (4 ∣ 0 ∧ 0 ≤ 8 * 0) ∧ (4 ∣ 4 ∧ 9 ≤ 8 * 4) ∧ (4 ∣ 8 ∧ 33 ≤ 8 * 8) ∧ (1 ≤ 1 ∧ 1 ≤ 32) ∧ (1 ≤ 32 ∧ 32 ≤ 32) := by decide

/-- A matrix of `h` equal rows of zeros. -/
def zeroMatrix (w h : Nat) : Matrix := { width := w, rows := List.replicate h (List.replicate w 0) }

theorem zeroMatrix_width (w h : Nat) : srcW (zeroMatrix w h) = w := rfl

theorem zeroMatrix_height (w h : Nat) : srcH (zeroMatrix w h) = h := List.length_replicate

theorem zeroMatrix_even (w h r : Nat) (hr : r < h) : srcRowLen (zeroMatrix w h) r = some w := by
  simp [srcRowLen, zeroMatrix, hr]

/-- Each clause of VALIDATE at the boundary of its range (V2, V3): the widest and the first too wide width, the first too high
height, a ragged row, the largest file and the first too large one, the capacity just met and just missed. -/
theorem witness_ValidateReportsFirstFailure :
    (srcW { width := 2 ^ 32, rows := [] } > 2 ^ 32 - 1) ∧
    (srcW (zeroMatrix 5 (2 ^ 32)) ≤ 2 ^ 32 - 1 ∧ srcH (zeroMatrix 5 (2 ^ 32)) > 2 ^ 32 - 1) ∧
    (srcW ragged ≤ 2 ^ 32 - 1 ∧ srcH ragged ≤ 2 ^ 32 - 1 ∧ ∃ r, r < srcH ragged ∧ srcRowLen ragged r ≠ some (srcW ragged)) ∧
    (srcW (zeroMatrix (2 ^ 32 - 1) 8) ≤ 2 ^ 32 - 1 ∧ srcH (zeroMatrix (2 ^ 32 - 1) 8) ≤ 2 ^ 32 - 1 ∧
      (∀ r, r < srcH (zeroMatrix (2 ^ 32 - 1) 8) → srcRowLen (zeroMatrix (2 ^ 32 - 1) 8) r = some (2 ^ 32 - 1)) ∧
      2 ^ 32 - 1 < 62 + rowBytes (2 ^ 32 - 1) * 8) ∧
    ((∀ r, r < srcH (zeroMatrix 1 1073741808) → srcRowLen (zeroMatrix 1 1073741808) r = some 1) ∧
      62 + rowBytes 1 * 1073741808 ≤ 2 ^ 32 - 1 ∧ 2 ^ 32 - 1 < 62 + rowBytes 1 * 1073741809) ∧
    ((∀ r, r < srcH (zeroMatrix 1 3) → srcRowLen (zeroMatrix 1 3) r = some 1) ∧
      rowBytes 1 * 2 ≤ 8 ∧ 8 < rowBytes 1 * 3) := by
  simp only [zeroMatrix_width, zeroMatrix_height]
  refine ⟨by decide, by decide, ⟨by decide, by decide, 1, by decide, by decide⟩, ⟨by decide, by decide, ?_, by decide⟩,
    ⟨?_, by decide, by decide⟩, ⟨?_, by decide, by decide⟩⟩ <;>
    exact fun r hr => zeroMatrix_even _ _ _ hr

/-- One-bit cells and cells with higher bits. -/
theorem witness_OnlyLowBitOfCellCounts :
    Config.wf { cellw := 1, pixcap := 0, sinkAtomic := false } = true ∧
    oneDot.rows[0]? = some [1] ∧ [1][0]? = some 1 ∧ Config.wf Config.specDefault = true ∧ [0xFE, 0xFF][1]? = some 0xFF := by
  decide

/-- A state as the loops of PACK meet it: `HEIGHT = 2`, `BPR = 4`, columns 0 and 8 of the bottom and the top row. -/
def packing : State :=
  { withMatrix { width := 9, rows := [[1, 0, 0, 0, 0, 0, 0, 0, 1], [1, 0, 0, 0, 0, 0, 0, 0, 1]] } with
    eng := { State.reset.eng with width := 9, height := 2, bpr := 4, pdlen := 8, pix := [0, 0, 0, 0, 0, 0, 0, 0] } }

theorem witness_SetDotOrsOneBit :
    srcCell packing.config packing.env.matrix 0 8 = some 1 ∧
    readByte .pix ((packing.eng.height.toNat - 1 - 0) * packing.eng.bpr.toNat + 8 / 8) packing = some 0 ∧
    srcCell packing.config packing.env.matrix 1 0 = some 1 ∧
    readByte .pix ((packing.eng.height.toNat - 1 - 1) * packing.eng.bpr.toNat + 0 / 8) packing = some 0 := by decide

theorem witness_SetDotLeavesOtherCellsAlone :
    packing.eng.bpr.toNat = rowBytes packing.eng.width.toNat ∧ 1 < packing.eng.height.toNat ∧
    8 < packing.eng.width.toNat ∧ (∃ t, setDot 1 8 packing = .ok t) ∧ ∃ t, setDot 0 0 packing = .ok t :=
  ⟨by decide, by decide, by decide, ⟨_, rfl⟩, ⟨_, rfl⟩⟩

theorem witness_PackBuildsPixelData :
    validate (withMatrix threeByTwo).config (withMatrix threeByTwo).env.matrix = .ok ⟨3, 2, 4, 8⟩ := by decide

/-- The scanline and the byte are the last of the image. -/
theorem witness_PixBytesAreOrOfLanes :
    ∃ t, exec .pack (withMatrix threeByTwo) = .next t ∧ t.eng.pixv = true ∧ 1 < t.eng.height.toNat ∧ 3 < t.eng.bpr.toNat :=
  ⟨_, rfl, rfl, by decide, by decide⟩

/-- Another order: the one that PACK does not use. -/
theorem witness_PackOrderIndependent :
    validate (withMatrix threeByTwo).config (withMatrix threeByTwo).env.matrix = .ok ⟨3, 2, 4, 8⟩ ∧
    [(1, 2), (1, 1), (1, 0), (0, 2), (0, 1), (0, 0)].Perm (allCells 2 3) := by decide

theorem witness_UnpackRecoversEveryDot :
    ∃ t, exec .pack (withMatrix threeByTwo) = .next t ∧ t.eng.pixv = true ∧
      1 < srcH (withMatrix threeByTwo).env.matrix ∧ 2 < srcW (withMatrix threeByTwo).env.matrix :=
  ⟨_, rfl, rfl, by decide, by decide⟩

/-- Byte 3 is a padding byte; a width of 32 has no padding. -/
theorem witness_PackPadsWithZeros :
    (∃ t, exec .pack (withMatrix threeByTwo) = .next t ∧ t.eng.pixv = true ∧ 1 < t.eng.height.toNat ∧ 3 < t.eng.bpr.toNat ∧
      (t.eng.width.toNat + 7) / 8 ≤ 3) ∧
    ∃ t, exec .pack (withMatrix (zeroMatrix 32 1)) = .next t ∧ t.eng.pixv = true ∧ 32 ∣ t.eng.width.toNat :=
  ⟨⟨_, rfl, rfl, by decide, by decide, by decide⟩, ⟨_, rfl, rfl, by decide⟩⟩

theorem witness_ZeroSizedMatrixPacksToNothing :
    ∀ m ∈ [zeroMatrix 0 0, zeroMatrix 0 3, zeroMatrix 5 0],
      (srcW m = 0 ∨ srcH m = 0) ∧ srcW m ≤ 2 ^ 32 - 1 ∧ srcH m ≤ 2 ^ 32 - 1 ∧
      ∀ r, r < srcH m → srcRowLen m r = some (srcW m) := by decide

theorem sameDots_dots :
    SameDots Config.specDefault threeByTwo Config.specDefault { width := 3, rows := [[0xFF, 2, 3], [0, 1, 7]] } := by
  have rows : ∀ r, srcRowLen threeByTwo r = srcRowLen { width := 3, rows := [[0xFF, 2, 3], [0, 1, 7]] } r := by
    rintro (_ | _ | r) <;> rfl
  refine ⟨by decide, by decide, rows, ?_⟩
  rintro (_ | _ | r) (_ | _ | _ | c) <;> rfl

theorem witness_PackDependsOnDotsOnly :
    (∃ t, exec .pack (withMatrix threeByTwo) = .next t ∧ t.eng.pixv = true) ∧
    (∃ t, exec .pack { held with env := { held.env with matrix := { width := 3, rows := [[0xFF, 2, 3], [0, 1, 7]] } } } =
      .next t ∧ t.eng.pixv = true) ∧
    (withMatrix threeByTwo).config.pixcap = held.config.pixcap ∧
    SameDots (withMatrix threeByTwo).config threeByTwo held.config { width := 3, rows := [[0xFF, 2, 3], [0, 1, 7]] } :=
  ⟨⟨_, rfl, rfl⟩, ⟨_, rfl, rfl⟩, rfl, sameDots_dots⟩

theorem witness_InvalidMatrixClearsFlags :
    validate (withMatrix ragged).config (withMatrix ragged).env.matrix = .error .raggedRow := by decide

theorem witness_FieldsAreLittleEndian : 65535 < 2 ^ 16 ∧ 4294967295 < 2 ^ 32 := by decide

/-- The largest image size within the bounds and the first outside them. -/
theorem witness_BuildHeadersGivesTemplate :
    (4294967295 ≤ 2 ^ 32 - 1 ∧ 4294967295 ≤ 2 ^ 32 - 1 ∧ 4294967233 ≤ 2 ^ 32 - 63) ∧
    ¬ (4294967295 ≤ 2 ^ 32 - 1 ∧ 4294967295 ≤ 2 ^ 32 - 1 ∧ 4294967234 ≤ 2 ^ 32 - 63) := by decide

theorem witness_BldhdrWritesHeader :
    (held.eng.pixv = true ∧ held.eng.hdr.length = 62 ∧ held.eng.pdlen.toNat ≤ 2 ^ 32 - 63) ∧ State.reset.eng.pixv = false := by
  decide

/-- The offsets next to the four fields that depend on the matrix. -/
theorem witness_HeaderFieldsAfterBldhdr :
    (held.eng.pdlen.toNat ≤ 2 ^ 32 - 63 ∧ held.eng.hdr.length = 62) ∧
    (∃ t, exec .bldhdr held = .next t ∧ t.eng.err = 0) ∧
    ∀ a ∈ [0, 1, 6, 17, 26, 33, 38, 61],
      ¬ (2 ≤ a ∧ a ≤ 5) ∧ ¬ (18 ≤ a ∧ a ≤ 21) ∧ ¬ (22 ≤ a ∧ a ≤ 25) ∧ ¬ (34 ≤ a ∧ a ≤ 37) :=
  ⟨by decide, ⟨_, rfl, rfl⟩, by decide⟩

theorem witness_AsmConcatenates :
    (held.eng.pixv = true ∧ held.eng.hdrv = true ∧ held.eng.hdr.length = 62 ∧ held.eng.pix.length = held.eng.pdlen.toNat) ∧
    (State.reset.eng.pixv = false ∨ State.reset.eng.hdrv = false) := by decide

theorem witness_HeldFileLayout : held.Inv ∧ held.eng.filev = true := ⟨held_inv, rfl⟩

theorem witness_HeldFileConstants : held.Inv ∧ held.eng.filev = true := ⟨held_inv, rfl⟩

theorem witness_EncodeBuildsFile :
    validate (withMatrix threeByTwo).config (withMatrix threeByTwo).env.matrix = .ok ⟨3, 2, 4, 8⟩ ∧
    (withMatrix threeByTwo).eng.hdr.length = 62 := by decide

theorem witness_EncodeEqualsThreeCommands :
    ∃ s₁ s₂ s₃, exec .pack (withMatrix oneDot) = .next s₁ ∧ s₁.eng.err = 0 ∧ exec .bldhdr s₁ = .next s₂ ∧
      exec .asm s₂ = .next s₃ :=
  ⟨_, _, _, rfl, rfl, rfl, rfl⟩

theorem witness_EncodeDependsOnDotsOnly :
    (∃ t, exec .encode (withMatrix threeByTwo) = .next t ∧ t.eng.filev = true) ∧
    (∃ t, exec .encode { held with env := { held.env with matrix := { width := 3, rows := [[0xFF, 2, 3], [0, 1, 7]] } } } =
      .next t ∧ t.eng.filev = true) ∧
    (withMatrix threeByTwo).config.pixcap = held.config.pixcap ∧
    SameDots (withMatrix threeByTwo).config threeByTwo held.config { width := 3, rows := [[0xFF, 2, 3], [0, 1, 7]] } :=
  ⟨⟨_, rfl, rfl⟩, ⟨_, rfl, rfl⟩, rfl, sameDots_dots⟩

theorem witness_FailedEncodeLeavesNothingToOutput :
    ∃ t, exec .encode { held with env := { held.env with matrix := ragged } } = .next t ∧ t.eng.err ≠ 0 :=
  ⟨_, rfl, by decide⟩

theorem witness_GetbytesReturnsFile :
    (held.eng.filev = true ∧ FileReadable held) ∧ State.reset.eng.filev = false := ⟨⟨rfl, held_readable⟩, rfl⟩

/-- No held file; an open that fails; an open that succeeds, with a write that takes the whole file before it fails, or nothing. -/
theorem witness_WrfileByChoices :
    (Memory.wf (emptyWith [answers true 0 0, answers true 0 0, answers true 0 0]) ∧
      (emptyWith [answers true 0 0, answers true 0 0, answers true 0 0]).env.choices =
        [answers true 0 0, answers true 0 0, answers true 0 0] ∧
      (emptyWith [answers true 0 0, answers true 0 0, answers true 0 0]).eng.filev = false) ∧
    Memory.wf (heldWith [answers false 0 1, answers true 0 0, answers true 0 0]) ∧
    Memory.wf (heldWith [answers true 0 0, answers false 66 2, answers false 0 3]) ∧
    (held.eng.filev = true ∧ FileReadable held) ∧
    (heldWith [answers false 0 1, answers true 0 0, answers true 0 0]).env.choices =
      [answers false 0 1, answers true 0 0, answers true 0 0] ∧ (answers false 0 1).accept = false ∧
    (heldWith [answers true 0 0, answers false 66 2, answers false 0 3]).env.choices =
      [answers true 0 0, answers false 66 2, answers false 0 3] ∧ (answers true 0 0).accept = true :=
  ⟨⟨emptyWith_wf _, rfl, rfl⟩, held_inv.mem_wf, held_inv.mem_wf, ⟨rfl, held_readable⟩, rfl, rfl, rfl, rfl⟩

/-- An open that answers `Ok`, before a write of 0 bytes that fails; an open that fails; no choice supplied. -/
theorem witness_WrfileAlwaysReleases :
    ∀ choices ∈ [[answers true 0 0, answers false 0 2, answers true 0 0], [answers false 0 1], []],
      Memory.wf (heldWith choices) ∧ (heldWith choices).eng.filev = true ∧ FileReadable (heldWith choices) :=
  fun _ _ => ⟨held_inv.mem_wf, rfl, held_readable⟩

/-- No held file; a `STREAM` that is closed; one that is open. -/
theorem witness_WrsinkByChoices :
    ((emptyWith [answers true 0 7]).env.choices = [answers true 0 7] ∧ (emptyWith [answers true 0 7]).eng.filev = false) ∧
    ((heldWith [answers true 0 7]).env.choices = [answers true 0 7] ∧ (heldWith [answers true 0 7]).eng.filev = true ∧
      FileReadable (heldWith [answers true 0 7]) ∧ (heldWith [answers true 0 7]).env.stream.isOpen = false) ∧
    ((streaming [answers false 66 7]).env.choices = [answers false 66 7] ∧ (streaming [answers false 66 7]).eng.filev = true ∧
      FileReadable (streaming [answers false 66 7]) ∧ (streaming [answers false 66 7]).env.stream.isOpen = true) :=
  ⟨⟨rfl, rfl⟩, ⟨rfl, rfl, held_readable, rfl⟩, ⟨rfl, rfl, held_readable, rfl⟩⟩

theorem witness_WrsinkLeavesStartOfFileOnFailure : held.eng.filev = true ∧ FileReadable held := ⟨rfl, held_readable⟩

/-- An open that fails, a write that fails, and a close that fails behind a complete write. -/
theorem witness_WrfileLeavesStartOfFileOnFailure :
    Memory.wf held ∧
    (∃ t, exec .wrfile (heldWith [answers false 0 1]) = .next t ∧ t.eng.err = 2) ∧
    (∃ t, exec .wrfile (heldWith [answers true 0 0, answers true 0 0, answers false 0 4]) = .next t ∧ t.eng.err = 2) ∧
    ∃ t, exec .wrfile (heldWith [answers true 0 0, answers false 10 2, answers true 0 0]) = .next t ∧ t.eng.err = 2 :=
  ⟨held_inv.mem_wf, ⟨_, rfl, rfl⟩, ⟨_, rfl, rfl⟩, ⟨_, rfl, rfl⟩⟩

theorem witness_OutputsLeaveEngineAlone :
    (∃ t, exec .getbytes held = .next t) ∧
    (∃ t, exec .wrfile (heldWith [answers true 0 0, answers true 0 0, answers true 0 0]) = .next t) ∧
    ∃ t, exec .wrsink (streaming [answers true 0 0]) = .next t :=
  ⟨⟨_, rfl⟩, ⟨_, rfl⟩, ⟨_, rfl⟩⟩

/-- One state on which all three outputs succeed. -/
theorem witness_OutputsDeliverSameBytes :
    Memory.wf (streaming [answers true 0 0, answers true 0 0, answers true 0 0]) ∧
    (∃ g, exec .getbytes (streaming [answers true 0 0, answers true 0 0, answers true 0 0]) = .next g ∧ g.eng.err = 0) ∧
    (∃ f, exec .wrfile (streaming [answers true 0 0, answers true 0 0, answers true 0 0]) = .next f ∧ f.eng.err = 0) ∧
    ∃ w, exec .wrsink (streaming [answers true 0 0, answers true 0 0, answers true 0 0]) = .next w ∧ w.eng.err = 0 :=
  ⟨held_inv.mem_wf, ⟨_, rfl, rfl⟩, ⟨_, rfl, rfl⟩, ⟨_, rfl, rfl⟩⟩

theorem witness_ResetEventTouchesNoSink : (upNext .reset held).port.script = [.reset] := rfl

/-- For each command that needs a result, a state without it; a state that has them all. -/
theorem witness_SequenceErrorExactlyWhenResultLacks :
    (∀ i ∈ [Instr.bldhdr, .asm, .getbytes, .wrfile, .wrsink], lacksResult i State.reset = true ∧ lacksResult i held = false) ∧
    lacksResult .asm { held with eng := { held.eng with hdrv := false } } = true ∧
    lacksResult .pack State.reset = false ∧ ∃ t, exec .getbytes held = .next t :=
  ⟨by decide, rfl, rfl, ⟨_, rfl⟩⟩

theorem witness_BuffersWrittenOnlyByTheirStage :
    (∃ t, exec .bldhdr held = .next t) ∧ (∃ t, exec .asm held = .next t ∧ t.eng.err ≠ 1) ∧
    ∃ t, exec .pack held = .next t ∧ t.eng.err ≠ 1 :=
  ⟨⟨_, rfl⟩, ⟨_, rfl, by decide⟩, ⟨_, rfl, by decide⟩⟩

theorem witness_FlagsFollowTheStages :
    (∃ t, exec .discard held = .next t) ∧ (∃ t, exec .asm State.reset = .next t ∧ t.eng.err = 4) ∧
    (∃ t, exec .pack held = .next t ∧ t.eng.err = 0) ∧ (∃ t, exec .bldhdr held = .next t ∧ t.eng.err = 0) ∧
    (∃ t, exec .encode held = .next t ∧ t.eng.err = 0) ∧ ∃ t, exec .getbytes held = .next t ∧ t.eng.err = 0 :=
  ⟨⟨_, rfl⟩, ⟨_, rfl, rfl⟩, ⟨_, rfl, rfl⟩, ⟨_, rfl, rfl⟩, ⟨_, rfl, rfl⟩, ⟨_, rfl, rfl⟩⟩

theorem witness_OnlyOutputCommandsCallSinks :
    Memory.wf (streaming [answers true 0 0, answers true 0 0, answers true 0 0]) ∧
    (∃ t, exec .wrfile (streaming [answers true 0 0, answers true 0 0, answers true 0 0]) = .next t) ∧
    (∃ t, exec .wrsink (streaming [answers true 0 0]) = .next t) ∧ ∃ t, exec .encode held = .next t :=
  ⟨held_inv.mem_wf, ⟨_, rfl⟩, ⟨_, rfl⟩, ⟨_, rfl⟩⟩

theorem witness_EveryStepKeepsInvariant :
    (upNext (.command 0x04#8) held).Inv ∧ ∃ t, step (upNext (.command 0x04#8) held) = .next t :=
  ⟨held_inv_env held.env.choices held.env.stream [.command 0x04#8], ⟨_, rfl⟩⟩

theorem witness_NoStepStops : (upNext (.command 0x06#8) held).Inv :=
  held_inv_env held.env.choices held.env.stream [.command 0x06#8]

theorem witness_EnginesAreIndependent :
    ∃ z, systemStep (ninst := 2) 1 (systemReset 2) = .next z := ⟨_, rfl⟩

end Sys2Proof.Tests
end

section
/-! What a command and what a step can do, each said once for the whole machine, and the facts that the statements of
`10_state.md` need beside it. -/

namespace Sys2Proof.Proofs

open Machine

/-! ## The decoder -/

/-- A code that selects no command is none of the eight codes of R100 (R101). -/
theorem legalCode_of_decodeCode_none {code : Byte} (h : decodeCode code = none) : legalCode code = false := by
  have hand : code &&& 0xFF#8 = code := BitVec.and_allOnes
  simp only [decodeCode, opcodeTable, OpcodeRow.matches, Option.map_eq_none_iff, List.find?_eq_none, List.mem_cons,
    List.not_mem_nil, or_false, forall_eq_or_imp, forall_eq, hand, beq_iff_eq] at h
  rw [legalCode, Bool.and_eq_false_iff, decide_eq_false_iff_not, decide_eq_false_iff_not]
  bv_omega

/-- Decoding a single code byte gives the command that the code selects (R103). -/
theorem decodeCode_of_decode {code : Byte} {i : Instr} (h : decode [code] = .ok (i, [])) : decodeCode code = some i := by
  cases hc : decodeCode code with
  | none => simp [decode, hc] at h
  | some j => simpa [decode, hc] using h

/-! ## What a command can do -/

/-- The first line of a command finds its result missing where its guard is false (R193). -/
theorem lacksResult_asm {s : State} (h : (s.eng.pixv && s.eng.hdrv) = false) : lacksResult .asm s = true := by
  simpa [lacksResult] using Bool.and_eq_false_iff.mp h

/-- Every way a command can end: the command, and the state it leaves. A run that faults has no end. -/
inductive CommandEnd (s : State) : Instr → State → Prop where
  /-- The result the command needs is not held (R193). -/
  | lacking (i : Instr) (hlack : lacksResult i s = true) :
      CommandEnd s i (takeError (.sequenceError (encodeCode i)) s)
  /-- VALIDATE refuses the matrix (R126, R172). -/
  | invalid (i : Instr) (sub : SubCause) (hi : i = .pack ∨ i = .encode)
      (hval : validate s.config s.env.matrix = .error sub) :
      CommandEnd s i (takeError (.invalidDimension sub) s.clearValid.unspecify)
  /-- PACK completes (R126). -/
  | packed (d : Dims) (hval : Validated s.config s.env.matrix d) :
      CommandEnd s .pack ((s.packed d).respond okCode (.word 0) [])
  /-- BLDHDR completes (R140). -/
  | headed (hpix : s.eng.pixv = true) :
      CommandEnd s .bldhdr
        ((s.clearFromHdr.setSpace .hdr (s.headerBytes ++ s.eng.hdr.drop 62)).setHdrv.respond okCode (.word 0) [])
  /-- ASM completes (R170). -/
  | assembled (hpix : s.eng.pixv = true) (hhdr : s.eng.hdrv = true) :
      CommandEnd s .asm
        ((s.clearFile.setSpace .file (s.eng.hdr.take 62 ++ s.eng.pix.take s.eng.pdlen.toNat)).setFilev.respond
          okCode (.word 0) [])
  /-- ENCODE completes (R172). -/
  | encoded (d : Dims) (hval : Validated s.config s.env.matrix d) :
      CommandEnd s .encode ((s.encoded d).respond okCode (.word 0) [])
  /-- GETBYTES completes (R175). -/
  | returned (data : List Byte) : CommandEnd s .getbytes (s.respond okCode (.word 0) data)
  /-- WRFILE or WRSINK completes, after its sink calls (R178, R180). -/
  | written (i : Instr) (u : State) (hi : i = .wrfile ∨ i = .wrsink) (frame : CallFrame s u)
      (hwf : Memory.wf s → Memory.wf u) : CommandEnd s i (u.respond okCode (.word 0) [])
  /-- WRFILE or WRSINK reports the failure of a sink call (R178, R180). -/
  | ioFailed (i : Instr) (u : State) (cause : Cause) (hi : i = .wrfile ∨ i = .wrsink) (frame : CallFrame s u)
      (hwf : Memory.wf s → Memory.wf u) : CommandEnd s i (takeError (.ioFailure cause) u)
  /-- DISCARD completes (R183). -/
  | discarded : CommandEnd s .discard (s.clearValid.unspecify.respond okCode (.word 0) [])

/-- The sink calls of WRFILE keep the form of the lists, whether it completes or fails. -/
theorem wrfileBody_keeps_wf {s u : State}
    (h : wrfileBody s = .done u [] ∨ ∃ cause, wrfileBody s = .raised (.ioFailure cause) u) (hw : Memory.wf s) :
    Memory.wf u := by
  rcases wrfileBody_cases hw with ⟨f, hstop, -⟩ | ⟨v, -, hv, -, ⟨c, hr, -⟩ | ⟨hd, -⟩ | ⟨k, c, hr, -⟩⟩
  · simp [hstop] at h
  · simp only [hr, reduceCtorEq, Stage.raised.injEq, false_or, exists_and_right] at h
    exact h.2 ▸ hv
  · simp only [hd, reduceCtorEq, Stage.done.injEq, exists_false, or_false] at h
    exact h.1 ▸ hv
  · simp only [hr, reduceCtorEq, Stage.raised.injEq, false_or, exists_and_right] at h
    exact h.2 ▸ hv

/-- The sink call of WRSINK touches neither `HDR` nor the named sinks, so it keeps the form of the lists. -/
theorem wf_of_callFrame {s u : State} (frame : CallFrame s u) (hnamed : u.env.named = s.env.named) :
    Memory.wf s → Memory.wf u :=
  wf_congr (by rw [frame.eng]) hnamed

/-- Whatever a command answers, it is one of the ends above. -/
theorem exec_ends {i : Instr} {s t : State} (h : exec i s = .next t) : CommandEnd s i t := by
  cases i with
  | pack =>
    rcases execPack_cases h with ⟨d, -, v, rfl⟩ | ⟨sub, hval, rfl⟩
    · exact .packed d v
    · exact .invalid .pack sub (.inl rfl) hval
  | bldhdr =>
    rcases execBldhdr_cases h with ⟨hp, rfl⟩ | ⟨hp, -, -, rfl⟩
    · exact .lacking .bldhdr (by simp [lacksResult, hp])
    · exact .headed hp
  | asm =>
    rcases execAsm_cases h with ⟨hp, rfl⟩ | ⟨hp, hh, -, -, rfl⟩
    · exact .lacking .asm (lacksResult_asm hp)
    · exact .assembled hp hh
  | encode =>
    rcases execEncode_cases h with ⟨d, -, v, -, rfl⟩ | ⟨sub, hval, rfl⟩
    · exact .encoded d v
    · exact .invalid .encode sub (.inr rfl) hval
  | getbytes =>
    rcases execGetbytes_cases h with ⟨hf, rfl⟩ | ⟨-, -, rfl⟩
    · exact .lacking .getbytes (by simp [lacksResult, hf])
    · exact .returned _
  | wrfile =>
    rcases execWrfile_cases h with ⟨hf, rfl⟩ | ⟨-, u, fr, ⟨hd, rfl⟩ | ⟨cause, hr, rfl⟩⟩
    · exact .lacking .wrfile (by simp [lacksResult, hf])
    · exact .written .wrfile u (.inl rfl) fr (wrfileBody_keeps_wf (.inl hd))
    · exact .ioFailed .wrfile u cause (.inl rfl) fr (wrfileBody_keeps_wf (.inr ⟨cause, hr⟩))
  | wrsink =>
    rcases execWrsink_cases h with ⟨hf, rfl⟩ | ⟨-, u, fr, hn, ⟨-, rfl⟩ | ⟨cause, -, rfl⟩⟩
    · exact .lacking .wrsink (by simp [lacksResult, hf])
    · exact .written .wrsink u (.inr rfl) fr (wf_of_callFrame fr hn)
    · exact .ioFailed .wrsink u cause (.inr rfl) fr (wf_of_callFrame fr hn)
  | discard =>
    cases h
    exact .discarded

/-! ## What a step can do -/

/-- Every way a step can end, once its event has been taken off the host's script: the event, and the state it leaves. -/
inductive EventEnd (s : State) : HostEvent → State → Prop where
  /-- A code that decodes: the command has run (R35). -/
  | command {code : Byte} {i : Instr} {t : State} (hdec : decodeCode code = some i) (hrun : exec i s = .next t) :
      EventEnd s (.command code) t
  /-- A code that selects no command (R101). -/
  | illegal {code : Byte} (hdec : decodeCode code = none) : EventEnd s (.command code) (illegalCommand code s)
  | presentMatrix (m : Matrix) : EventEnd s (.presentMatrix m) (presentMatrix m s)
  | holdPath (p : Path) : EventEnd s (.holdPath p) (holdPath p s)
  | setSink (ref : SinkRef) (v : Sink) : EventEnd s (.setSink ref v) (s.setSink ref v)
  | sinkChoices (cs : List SinkChoice) : EventEnd s (.sinkChoices cs) (supplyChoices cs s)
  | reset : EventEnd s .reset (hostReset s)

/-- A command code that is next at the port is run at the state without it (R35). -/
theorem step_command {s : State} {code : Byte} {rest : List HostEvent} (h : s.port.script = .command code :: rest) :
    step s = runCode code (popScript rest s) := by
  simp [step, h]

/-- The port runs the command that a code selects. -/
theorem runCode_of_decodeCode {code : Byte} {i : Instr} (h : decodeCode code = some i) (s : State) :
    runCode code s = exec i s := by
  simp [runCode, h]

theorem runCode_ends {code : Byte} {s t : State} (h : runCode code s = .next t) : EventEnd s (.command code) t := by
  cases hdec : decodeCode code with
  | some i => exact .command hdec (by rwa [runCode_of_decodeCode hdec] at h)
  | none =>
    simp only [runCode, hdec, Host.Outcome.next.injEq] at h
    exact h ▸ .illegal hdec

/-- Everything a step can do: with no event it holds its state, else it takes the first one. -/
theorem step_ends {s t : State} (h : step s = .next t) :
    (s.port.script = [] ∧ t = s) ∨
      ∃ e rest, s.port.script = e :: rest ∧ EventEnd (popScript rest s) e t := by
  cases hs : s.port.script with
  | nil => exact .inl ⟨rfl, by simpa [step, hs] using h.symm⟩
  | cons e rest =>
    refine .inr ⟨e, rest, rfl, ?_⟩
    simp only [step, hs] at h
    cases e with
    | command code => exact runCode_ends h
    | presentMatrix m => cases h; exact .presentMatrix m
    | holdPath p => cases h; exact .holdPath p
    | setSink ref v => cases h; exact .setSink ref v
    | sinkChoices cs => cases h; exact .sinkChoices cs
    | reset => cases h; exact .reset

/-! ## The invariant is kept -/

/-- The code that a `SequenceError` reports is that of a command that needs a result (R193). -/
theorem encodeCode_of_lacksResult {i : Instr} {s : State} (h : lacksResult i s = true) :
    encodeCode i ∈ [0x02#8, 0x03#8, 0x05#8, 0x06#8, 0x07#8] := by
  cases i with
  | pack => cases h
  | encode => cases h
  | discard => cases h
  | bldhdr => decide
  | asm => decide
  | getbytes => decide
  | wrfile => decide
  | wrsink => decide

/-- Every command keeps the invariant. -/
theorem exec_inv {i : Instr} {s t : State} (h : s.Inv) (hrun : exec i s = .next t) : t.Inv := by
  cases exec_ends hrun with
  | lacking i hlack => exact respond_inv h [] (report_sequence (encodeCode_of_lacksResult hlack))
  | invalid i sub hi hval => exact respond_inv (unspecify_inv h) [] (report_dimension sub)
  | packed d v => exact respond_inv (packed_inv h v) [] report_ok
  | headed hp => exact respond_inv (withHeader_inv h hp) [] report_ok
  | assembled hp hh => exact respond_inv (assembled_inv h hp hh) [] report_ok
  | encoded d v => exact respond_inv (encoded_inv h v) [] report_ok
  | returned data => exact respond_inv h data report_ok
  | written i u hi fr hwf => exact respond_inv (callFrame_inv h fr (hwf h.mem_wf)) [] report_ok
  | ioFailed i u cause hi fr hwf => exact respond_inv (callFrame_inv h fr (hwf h.mem_wf)) [] (report_ioFailure cause)
  | discarded => exact respond_inv (unspecify_inv h) [] report_ok

/-- The reset event keeps the invariant: with the flags clear, only the report is left to check (R220). -/
theorem hostReset_inv {s : State} (h : s.Inv) : (hostReset s).Inv :=
  inv_congr (respond_inv (unspecify_inv h) [] report_ok) rfl rfl (unspecify_inv h).mem_wf

/-- Taking an event off the script keeps the invariant, which says nothing of the port. -/
theorem popScript_inv {s : State} (rest : List HostEvent) (h : s.Inv) : (popScript rest s).Inv :=
  inv_congr h rfl rfl h.mem_wf

/-- Whatever the host's next event does keeps the invariant. -/
theorem eventEnd_inv {e : HostEvent} {s t : State} (h : s.Inv) (he : EventEnd s e t) : t.Inv := by
  cases he with
  | command _ hrun => exact exec_inv h hrun
  | illegal hdec => exact respond_inv h [] (report_illegal (legalCode_of_decodeCode_none hdec))
  | presentMatrix m => exact inv_congr h rfl rfl h.mem_wf
  | holdPath p => exact inv_congr h rfl rfl h.mem_wf
  | setSink ref v => exact inv_congr h (setSink_eng s ref v) (setSink_config s ref v) (setSink_wf ref v h.mem_wf)
  | sinkChoices cs => exact inv_congr h rfl rfl h.mem_wf
  | reset => exact hostReset_inv h

/-- Settles O51: by what a step can do, one case for each end of a command and each event of the host. -/
theorem everyStepKeepsInvariant : Obligations.EveryStepKeepsInvariant := by
  intro s t h hstep
  rcases step_ends hstep with ⟨-, rfl⟩ | ⟨e, rest, -, he⟩
  · exact h
  · exact eventEnd_inv (popScript_inv rest h) he

/-! ## The response -/

/-- A command ends with a response that `ERR` and `ERRINFO` repeat, at a state whose port, parameters, matrix and held name are
as they were; only GETBYTES, ending with `OK`, gives data (R34, R35, R176). -/
theorem commandEnd_responds {i : Instr} {s t : State} (h : CommandEnd s i t) :
    ∃ (u : State) (code : Byte) (info : Info) (data : List Byte), t = u.respond code info data ∧ u.port = s.port ∧ u.config = s.config ∧
      u.env.matrix = s.env.matrix ∧ u.env.path = s.env.path ∧ (data ≠ [] → i = .getbytes ∧ code = 0) := by
  cases h with
  | lacking i hlack => exact ⟨_, _, _, [], rfl, by simp, by simp, by simp, by simp, absurd rfl⟩
  | invalid i sub hi hval => exact ⟨_, _, _, [], rfl, by simp, by simp, by simp, by simp, absurd rfl⟩
  | packed d v => exact ⟨_, _, _, [], rfl, by simp, by simp, by simp, by simp, absurd rfl⟩
  | headed hp => exact ⟨_, _, _, [], rfl, by simp, by simp, by simp, by simp, absurd rfl⟩
  | assembled hp hh => exact ⟨_, _, _, [], rfl, by simp, by simp, by simp, by simp, absurd rfl⟩
  | encoded d v => exact ⟨_, _, _, [], rfl, by simp, by simp, by simp, by simp, absurd rfl⟩
  | returned data => exact ⟨_, _, _, data, rfl, rfl, rfl, rfl, rfl, fun _ => ⟨rfl, rfl⟩⟩
  | written i u hi fr hwf => exact ⟨u, _, _, [], rfl, fr.port, fr.config, fr.matrix, fr.path, absurd rfl⟩
  | ioFailed i u cause hi fr hwf => exact ⟨u, _, _, [], rfl, fr.port, fr.config, fr.matrix, fr.path, absurd rfl⟩
  | discarded => exact ⟨_, _, _, [], rfl, by simp, by simp, by simp, by simp, absurd rfl⟩

/-- Settles O8: each end of a command gives one response, which `ERR` and `ERRINFO` repeat. -/
theorem oneResponsePerCommand : Obligations.OneResponsePerCommand := by
  intro i s t h
  obtain ⟨u, code, info, data, rfl, hport, hconfig, hmatrix, hpath, hdata⟩ := commandEnd_responds (exec_ends h)
  exact ⟨data, by simp [hport], hdata, by simp [hport], hconfig, hmatrix, hpath⟩

/-! ## What ENCODE depends on -/

/-- VALIDATE reads the dimensions and the row lengths of the matrix and the capacity, and nothing else (R123, R133). -/
theorem validate_congr {cfg cfg' : Config} {m m' : Matrix} (h : SameDots cfg m cfg' m') (hcap : cfg.pixcap = cfg'.pixcap) :
    validate cfg m = validate cfg' m' := by
  obtain ⟨hw, hh, hrows, -⟩ := h
  have hragged : ∀ w n, someRowRagged m w n = someRowRagged m' w n := fun w n => by simp only [someRowRagged, hrows]
  simp only [validate, hw, hh, hcap, hragged]

theorem laneOr_congr {cfg cfg' : Config} {m m' : Matrix} (h : ∀ r c, matrixDot cfg m r c = matrixDot cfg' m' r c)
    (w r j n : Nat) : laneOr cfg m w r j n = laneOr cfg' m' w r j n := by
  induction n with
  | zero => rfl
  | succ k ih => rw [laneOr, laneOr, ih, h]

/-- The pixel data are a function of the dots and the dimensions (R127, R133). -/
theorem pixelData_congr {cfg cfg' : Config} {m m' : Matrix} (h : SameDots cfg m cfg' m') (d : Dims) :
    pixelData cfg m d = pixelData cfg' m' d := by
  obtain ⟨-, -, -, hdots⟩ := h
  simp only [pixelData, pixelByte, laneOr_congr hdots]

/-- Settles O32: the answers of VALIDATE are equal, and where it accepts the file is the header of its dimensions followed by the
pixel data. -/
theorem encodeDependsOnDotsOnly : Obligations.EncodeDependsOnDotsOnly := by
  intro s s' t t' hdots hcap h h'
  have hval := validate_congr hdots hcap
  rcases execEncode_cases h with ⟨d, hd, -, -, rfl⟩ | ⟨sub, hsub, rfl⟩
  · rcases execEncode_cases h' with ⟨d', hd', -, -, rfl⟩ | ⟨sub', hsub', rfl⟩
    · obtain rfl : d = d' := by simpa [hd, hd'] using hval
      simp [pixelData_congr hdots d]
    · simp [hd, hsub'] at hval
  · rcases execEncode_cases h' with ⟨d', hd', -, -, rfl⟩ | ⟨sub', hsub', rfl⟩
    · simp [hsub, hd'] at hval
    · obtain rfl : sub = sub' := by simpa [hsub, hsub'] using hval
      simp

/-! ## What each command writes -/

/-- A command that changes neither the operand registers nor `PIX`. -/
def KeepsOperands (s t : State) : Prop :=
  t.eng.width = s.eng.width ∧ t.eng.height = s.eng.height ∧ t.eng.bpr = s.eng.bpr ∧ t.eng.pdlen = s.eng.pdlen ∧
    t.eng.pix = s.eng.pix

/-- The registers and `PIX` are written by PACK and ENCODE only, DISCARD left aside (R24, R25, R29). -/
theorem commandEnd_keepsOperands {i : Instr} {s t : State} (h : CommandEnd s i t) (hdiscard : i ≠ .discard)
    (hpack : i ≠ .pack) (hencode : i ≠ .encode) : KeepsOperands s t := by
  cases h with
  | lacking i hlack => simp [KeepsOperands]
  | invalid i sub hi hval => exact absurd hi (by simp [hpack, hencode])
  | packed d v => exact absurd rfl hpack
  | headed hp => simp [KeepsOperands]
  | assembled hp hh => simp [KeepsOperands]
  | encoded d v => exact absurd rfl hencode
  | returned data => simp [KeepsOperands]
  | written i u hi fr hwf => simp [KeepsOperands, fr.eng]
  | ioFailed i u cause hi fr hwf => simp [KeepsOperands, fr.eng]
  | discarded => exact absurd rfl hdiscard

/-- `HDR` is written by BLDHDR and ENCODE only, DISCARD and a refused matrix left aside (R30). -/
theorem commandEnd_hdr {i : Instr} {s t : State} (h : CommandEnd s i t) (hdiscard : i ≠ .discard) (hencode : i ≠ .encode)
    (hbldhdr : i ≠ .bldhdr) (herr : t.eng.err ≠ 1) : t.eng.hdr = s.eng.hdr := by
  cases h with
  | lacking i hlack => simp
  | invalid i sub hi hval => exact absurd rfl herr
  | packed d v => simp
  | headed hp => exact absurd rfl hbldhdr
  | assembled hp hh => simp
  | encoded d v => exact absurd rfl hencode
  | returned data => simp
  | written i u hi fr hwf => simp [fr.eng]
  | ioFailed i u cause hi fr hwf => simp [fr.eng]
  | discarded => exact absurd rfl hdiscard

/-- `FILE` is written by ASM and ENCODE only, DISCARD and a refused matrix left aside (R31). -/
theorem commandEnd_file {i : Instr} {s t : State} (h : CommandEnd s i t) (hdiscard : i ≠ .discard) (hencode : i ≠ .encode)
    (hasm : i ≠ .asm) (herr : t.eng.err ≠ 1) : t.eng.file = s.eng.file := by
  cases h with
  | lacking i hlack => simp
  | invalid i sub hi hval => exact absurd rfl herr
  | packed d v => simp
  | headed hp => simp
  | assembled hp hh => exact absurd rfl hasm
  | encoded d v => exact absurd rfl hencode
  | returned data => simp
  | written i u hi fr hwf => simp [fr.eng]
  | ioFailed i u cause hi fr hwf => simp [fr.eng]
  | discarded => exact absurd rfl hdiscard

/-- Equal bytes of a space read alike at every offset. -/
theorem readByte_congr {sp : Space} {s t : State} (h : t.space sp = s.space sp) (a : Nat) : readByte sp a t = readByte sp a s := by
  simp only [readByte, h]

/-- Settles O47: each buffer by the ends of a command that leave it as it is. -/
theorem buffersWrittenOnlyByTheirStage : Obligations.BuffersWrittenOnlyByTheirStage := by
  intro i s t h hdiscard
  have hend := exec_ends h
  refine ⟨fun hpack hencode => ?_, fun hencode hbldhdr herr => ?_, fun hencode hasm herr => ?_⟩
  · obtain ⟨hw, hh, hb, hn, hpix⟩ := commandEnd_keepsOperands hend hdiscard hpack hencode
    exact ⟨hw, hh, hb, hn, readByte_congr hpix⟩
  · exact readByte_congr (commandEnd_hdr hend hdiscard hencode hbldhdr herr)
  · exact readByte_congr (commandEnd_file hend hdiscard hencode hasm herr)

/-! ## The valid flags -/

/-- DISCARD needs no result. -/
theorem ne_discard_of_lacksResult {i : Instr} {s : State} (h : lacksResult i s = true) : i ≠ .discard := by
  rintro rfl
  cases h

/-- Settles O48: the flags at each end of a command. -/
theorem flagsFollowTheStages : Obligations.FlagsFollowTheStages := by
  intro i s t h
  cases exec_ends h with
  | lacking i hlack => simp [errorCode, ne_discard_of_lacksResult hlack]
  | invalid i sub hi hval => simp [errorCode]
  | packed d v => simp
  | headed hp => simp [hp]
  | assembled hp hh => simp [hp, hh]
  | encoded d v => simp
  | returned data => simp
  | written i u hi fr hwf => rcases hi with rfl | rfl <;> simp [fr.eng]
  | ioFailed i u cause hi fr hwf => rcases hi with rfl | rfl <;> simp [errorCode, fr.eng]
  | discarded => simp

/-! ## One step, one cell, and the state after reset -/

/-- Settles O4: a single code byte decodes to what `decodeCode` selects, and that is what the port runs. -/
theorem stepRunsDecodedCommand : Obligations.StepRunsDecodedCommand := by
  intro s code rest i hscript hdec
  rw [step_command hscript, runCode_of_decodeCode (decodeCode_of_decode hdec)]
  rfl

/-- Settles O12: cutting a cell to `CELLW ≥ 1` bits keeps its parity, and the dot is the parity. -/
theorem onlyLowBitOfCellCounts : Obligations.OnlyLowBitOfCellCounts := by
  intro cfg m r c v row hcfg hrow hcell
  have hread : srcCell cfg m r c = some (v % 2 ^ cfg.cellw) := by simp [srcCell, hrow, hcell]
  have hdvd : 2 ∣ 2 ^ cfg.cellw := dvd_pow_self 2 (Nat.one_le_iff_ne_zero.mp (of_decide_eq_true hcfg))
  rw [matrixDot_of_cell hread, dotOf_eq, Nat.mod_mod_of_dvd v hdvd]

/-- After reset every sink is closed and empty (log 2). -/
theorem reset_sink (ref : SinkRef) : State.reset.sink ref = { isOpen := false, content := [] } := by
  cases ref with
  | named p => rfl
  | stream => rfl

/-- Settles O44: every field has its value by the definition of the reset state. -/
theorem resetStateValues : Obligations.ResetStateValues :=
  ⟨rfl, rfl, rfl, rfl, rfl, rfl, rfl, rfl, rfl, rfl, rfl, rfl, rfl, rfl, rfl, reset_sink, rfl, rfl, rfl, rfl, rfl, rfl⟩

/-- `HDR` has its 62 bytes after reset, and no sink is listed. -/
theorem reset_wf : Memory.wf State.reset := ⟨List.length_replicate, .nil, by simp [State.reset]⟩

/-- Settles O50: no flag is set, so the lengths, the parameters and the report are all there is to check. -/
theorem invariantAtReset : Obligations.InvariantAtReset where
  config_wf := rfl
  mem_wf := reset_wf
  file_needs := nofun
  hdr_needs := nofun
  packed := nofun
  header := nofun
  file := nofun
  report := report_ok

end Sys2Proof.Proofs
end

section
/-! The family of `20_memory.md`: how a held `FILE` is laid out, and what a command leaves alone in the engine, in the sinks and in
the other engines of a system. -/

namespace Sys2Proof.Proofs

open Machine

/-! ## Fields -/

/-- Settles O23: the lengths are those of the lists, and the reader adds the bytes up again. -/
theorem fieldsAreLittleEndian : Obligations.FieldsAreLittleEndian :=
  ⟨fun v hv => ⟨le16_length v, leNat_le16 hv⟩, fun v hv => ⟨le32_length v, leNat_le32 hv⟩⟩

/-- A field that lies in the first part of a byte sequence is read from that part. -/
theorem field4_append {front : List Byte} {offset : Nat} (h : offset + 4 ≤ front.length) (back : List Byte) :
    field4 (front ++ back) offset = field4 front offset := by
  rw [field4, List.drop_append_of_le_length (by omega), List.take_append_of_le_length (by rw [List.length_drop]; omega), field4]

/-- The size field of the header counts the header and the pixel data (R90). -/
theorem field4_headerTemplate_fileSize {w h n : Nat} (hn : n ≤ 2 ^ 32 - 63) : field4 (headerTemplate w h n) 2 = 62 + n := by
  rw [field4, template_fileSize, leNat_le32 (by omega)]

/-- Settles O28: under the invariant `FILE` is `HDR` followed by `PIX`, and `HDR` is the header of the registers. -/
theorem heldFileLayout : Obligations.HeldFileLayout := by
  intro s hinv hfilev
  obtain ⟨hhdrv, hpixv⟩ := hinv.file_needs hfilev
  have hhdr : s.eng.hdr.length = 62 := hinv.mem_wf.1
  have hfile := hinv.file hfilev
  have hlen := file_length hinv hfilev
  have hsize : field4 s.eng.file 2 = 62 + s.eng.pdlen.toNat := by
    rw [hfile, field4_append (by omega), hinv.header hhdrv, field4_headerTemplate_fileSize (hinv.packed hpixv).pdlen_le]
  exact ⟨by rw [hfile, List.take_left' hhdr], by rw [hfile, List.drop_left' hhdr], hlen, hsize.trans hlen.symm⟩

/-! ## What the outputs leave alone -/

/-- A response after sink calls changes the report in the engine and nothing else there. -/
theorem respond_eng_of_callFrame {s u : State} (frame : CallFrame s u) (code : Byte) (info : Info) (data : List Byte) :
    (u.respond code info data).eng = { s.eng with err := code, errinfo := info } := by
  rw [← frame.eng]
  rfl

/-- Settles O40: each end of an output is a response after sink calls, if any. -/
theorem outputsLeaveEngineAlone : Obligations.OutputsLeaveEngineAlone := by
  rintro i s t (rfl | rfl | rfl) h
  · rcases execGetbytes_cases h with ⟨-, rfl⟩ | ⟨-, -, rfl⟩
    · exact respond_eng_of_callFrame .rfl _ _ _
    · exact respond_eng_of_callFrame .rfl _ _ _
  · rcases execWrfile_cases h with ⟨-, rfl⟩ | ⟨-, u, frame, ⟨-, rfl⟩ | ⟨cause, -, rfl⟩⟩
    · exact respond_eng_of_callFrame .rfl _ _ _
    · exact respond_eng_of_callFrame frame _ _ _
    · exact respond_eng_of_callFrame frame _ _ _
  · rcases execWrsink_cases h with ⟨-, rfl⟩ | ⟨-, u, frame, -, ⟨-, rfl⟩ | ⟨cause, -, rfl⟩⟩
    · exact respond_eng_of_callFrame .rfl _ _ _
    · exact respond_eng_of_callFrame frame _ _ _
    · exact respond_eng_of_callFrame frame _ _ _

/-- A command that is neither WRFILE nor WRSINK leaves the whole environment as it is (R50, R63). -/
theorem commandEnd_env {i : Instr} {s t : State} (h : CommandEnd s i t) (hwrfile : i ≠ .wrfile) (hwrsink : i ≠ .wrsink) :
    t.env = s.env := by
  cases h with
  | lacking i hlack => simp
  | invalid i sub hi hval => simp
  | packed d v => simp
  | headed hp => simp
  | assembled hp hh => simp
  | encoded d v => simp
  | returned data => simp
  | written i u hi frame hwf => exact absurd hi (by simp [hwrfile, hwrsink])
  | ioFailed i u cause hi frame hwf => exact absurd hi (by simp [hwrfile, hwrsink])
  | discarded => simp

/-- The calls of WRFILE touch the sink of the held name only, whether it completes or fails (R178). -/
theorem wrfileBody_other_sinks {s u : State} (hw : Memory.wf s)
    (h : wrfileBody s = .done u [] ∨ ∃ cause, wrfileBody s = .raised (.ioFailure cause) u) :
    ∀ ref, ref ≠ .named s.env.path → u.sink ref = s.sink ref := by
  rcases wrfileBody_cases hw with ⟨f, hstop, -⟩ | ⟨v, -, -, hothers, ⟨c, hr, -⟩ | ⟨hd, -⟩ | ⟨k, c, hr, -⟩⟩
  · simp [hstop] at h
  · obtain rfl : v = u := by simpa [hr] using h
    exact hothers
  · obtain rfl : v = u := by simpa [hd] using h
    exact hothers
  · obtain rfl : v = u := by simpa [hr] using h
    exact hothers

/-- WRFILE leaves every sink but that of the held name as it is (R178). -/
theorem execWrfile_other_sinks {s t : State} (hw : Memory.wf s) (h : exec .wrfile s = .next t) :
    ∀ ref, ref ≠ .named s.env.path → t.sink ref = s.sink ref := by
  intro ref hne
  rcases execWrfile_cases h with ⟨-, rfl⟩ | ⟨-, u, -, ⟨hd, rfl⟩ | ⟨cause, hr, rfl⟩⟩
  · simp
  · simpa using wrfileBody_other_sinks hw (.inl hd) ref hne
  · simpa using wrfileBody_other_sinks hw (.inr ⟨cause, hr⟩) ref hne

/-- WRSINK leaves every named sink as it is (R180). -/
theorem execWrsink_named {s t : State} (h : exec .wrsink s = .next t) : t.env.named = s.env.named := by
  rcases execWrsink_cases h with ⟨-, rfl⟩ | ⟨-, u, -, hnamed, ⟨-, rfl⟩ | ⟨cause, -, rfl⟩⟩
  · simp
  · simpa using hnamed
  · simpa using hnamed

/-- Settles O49: the environment by the ends of a command, the other sinks by what WRFILE and WRSINK can do. -/
theorem onlyOutputCommandsCallSinks : Obligations.OnlyOutputCommandsCallSinks := by
  intro i s t h
  have hend := exec_ends h
  obtain ⟨u, code, info, data, rfl, -, -, hmatrix, hpath, -⟩ := commandEnd_responds hend
  refine ⟨commandEnd_env hend, hmatrix, hpath, ?_, ?_⟩
  · rintro rfl hw
    exact execWrfile_other_sinks hw h
  · rintro rfl p
    rw [State.sink, execWrsink_named h, State.sink]

/-! ## Several engines -/

/-- A step of a system completes exactly when that of its engine does, and puts the engine's new state in the old one's place. -/
theorem systemStep_next {ninst : Nat} {k : Fin ninst} {y z : System ninst} :
    systemStep k y = .next z ↔ ∃ t, step y[k] = .next t ∧ y.set k t = z := by
  unfold systemStep
  cases step y[k] with
  | next t => simp
  | fault f => simp
  | refused r => simp

/-- Settles O53: only the entry of the engine that steps is replaced. -/
theorem enginesAreIndependent : Obligations.EnginesAreIndependent := by
  intro ninst k y z h
  obtain ⟨t, hstep, rfl⟩ := systemStep_next.mp h
  refine ⟨by simpa using hstep, fun j hj => ?_⟩
  exact Vector.getElem_set_ne k.isLt j.isLt fun hkj => hj (Fin.ext hkj.symm)

end Sys2Proof.Proofs
end

section
/-! The family of `30_encoding.md`: what every held `FILE` has in common, which codes the decoder takes, and what an illegal code
does at the port. -/

namespace Sys2Proof.Proofs

open Machine

/-! ## The header of a held file -/

/-- The first 62 bytes of a held `FILE` are the header of the registers (R33, R90), so what lies within them is read there. -/
theorem file_slice_of_held {s : State} (hinv : s.Inv) (hfilev : s.eng.filev = true) {offset n : Nat} (h : offset + n ≤ 62) :
    (s.eng.file.drop offset).take n = (s.headerBytes.drop offset).take n := by
  obtain ⟨hhdrv, -⟩ := hinv.file_needs hfilev
  have hlen : s.headerBytes.length = 62 := headerTemplate_length _ _ _
  have hheader : s.eng.hdr = s.headerBytes := hinv.header hhdrv
  have hfile : s.eng.file = s.headerBytes ++ s.eng.pix := by rw [hinv.file hfilev, hheader]
  rw [hfile, List.drop_append_of_le_length (by omega), List.take_append_of_le_length (by rw [List.length_drop]; omega)]

theorem field4_of_held {s : State} (hinv : s.Inv) (hfilev : s.eng.filev = true) {offset : Nat} (h : offset + 4 ≤ 62) :
    field4 s.eng.file offset = field4 s.headerBytes offset :=
  congrArg leNat (file_slice_of_held hinv hfilev h)

theorem field2_of_held {s : State} (hinv : s.Inv) (hfilev : s.eng.filev = true) {offset : Nat} (h : offset + 2 ≤ 62) :
    field2 s.eng.file offset = field2 s.headerBytes offset :=
  congrArg leNat (file_slice_of_held hinv hfilev h)

/-- A scanline is a whole number of `ROW_ALIGN` units (R120). -/
theorem rowAlign_dvd_rowBytes (w : Nat) : rowAlign ∣ rowBytes w := Nat.dvd_mul_left _ _

/-- The bytes and fields of a header that do not depend on the registers (R90, R94). -/
theorem headerBytes_constants (s : State) :
    (s.headerBytes.drop 0).take 2 = [0x42#8, 0x4D#8] ∧ field4 s.headerBytes 10 = 62 ∧ field4 s.headerBytes 14 = 40 ∧
    field2 s.headerBytes 26 = 1 ∧ field2 s.headerBytes 28 = 1 ∧ field4 s.headerBytes 30 = 0 ∧
    field4 s.headerBytes 38 = 3780 ∧ field4 s.headerBytes 42 = 3780 ∧ field4 s.headerBytes 46 = 0 ∧
    field4 s.headerBytes 50 = 0 ∧
    (s.headerBytes.drop 54).take 8 = [0x00#8, 0x00#8, 0x00#8, 0x00#8, 0xFF#8, 0xFF#8, 0xFF#8, 0x00#8] := by
  simp [field4, field2, State.headerBytes, headerTemplate, le32, leNat]

/-- Settles O29: the constants are those of the header, `BPR` is a `rowBytes`, and the size field is that of the held layout. -/
theorem heldFileConstants : Obligations.HeldFileConstants := by
  intro s hinv hfilev
  obtain ⟨-, hpixv⟩ := hinv.file_needs hfilev
  obtain ⟨-, -, -, hsize⟩ := heldFileLayout s hinv hfilev
  obtain ⟨hsignature, hdataOffset, hinfoSize, hplanes, hbitCount, hcompression, hxRes, hyRes, hused, himportant, hcolours⟩ :=
    headerBytes_constants s
  have hbpr : 4 ∣ s.eng.bpr.toNat := (hinv.packed hpixv).bpr_eq ▸ rowAlign_dvd_rowBytes _
  have slice {offset n : Nat} (h : offset + n ≤ 62) := file_slice_of_held hinv hfilev h
  have f4 {offset : Nat} (h : offset + 4 ≤ 62) := field4_of_held hinv hfilev h
  have f2 {offset : Nat} (h : offset + 2 ≤ 62) := field2_of_held hinv hfilev h
  exact ⟨(slice (by decide)).trans hsignature, (f4 (by decide)).trans hdataOffset, (f4 (by decide)).trans hinfoSize,
    (f2 (by decide)).trans hplanes, (f2 (by decide)).trans hbitCount, (f4 (by decide)).trans hcompression,
    (f4 (by decide)).trans hxRes, (f4 (by decide)).trans hyRes, (f4 (by decide)).trans hused,
    (f4 (by decide)).trans himportant, (slice (by decide)).trans hcolours, hbpr, hsize⟩

/-! ## The command table -/

/-- Every row of the table compares all eight bits of a code with the code of its command (R100). -/
theorem opcodeTable_rows : ∀ row ∈ opcodeTable, row.mask = 0xFF#8 ∧ row.pattern = encodeCode row.instr := by decide

/-- A row of the table takes the code of its command and no other. -/
theorem matches_iff_of_mem_opcodeTable {row : OpcodeRow} (h : row ∈ opcodeTable) (code : Byte) :
    row.matches code = true ↔ code = encodeCode row.instr := by
  obtain ⟨hmask, hpattern⟩ := opcodeTable_rows row h
  have hand : code &&& 0xFF#8 = code := BitVec.and_allOnes
  rw [OpcodeRow.matches, hmask, hpattern, hand, beq_iff_eq]

/-- The code of a command selects that command (R100). -/
@[simp] theorem decodeCode_encodeCode (i : Instr) : decodeCode (encodeCode i) = some i := by
  cases i <;> rfl

/-- A command is selected by its own code only (R102). -/
theorem decodeCode_eq_some_iff {code : Byte} {i : Instr} : decodeCode code = some i ↔ code = encodeCode i := by
  constructor
  · intro h
    obtain ⟨row, hfind, rfl⟩ := Option.map_eq_some_iff.mp h
    have hmatches : row.matches code = true := List.find?_some (p := (OpcodeRow.matches · code)) hfind
    exact (matches_iff_of_mem_opcodeTable (List.mem_of_find?_eq_some hfind) code).mp hmatches
  · rintro rfl
    exact decodeCode_encodeCode i

/-- The code of a command is in the range of R100. -/
theorem legalCode_encodeCode (i : Instr) : legalCode (encodeCode i) = true := by
  cases i <;> rfl

theorem legalCode_eq_false_iff {code : Byte} : legalCode code = false ↔ code = 0x00#8 ∨ 0x09#8 ≤ code := by
  rw [legalCode, Bool.and_eq_false_iff, decide_eq_false_iff_not, decide_eq_false_iff_not]
  bv_omega

/-- The codes that select no command (R101). -/
theorem decodeCode_eq_none_iff {code : Byte} : decodeCode code = none ↔ code = 0x00#8 ∨ 0x09#8 ≤ code := by
  rw [← legalCode_eq_false_iff]
  constructor
  · exact legalCode_of_decodeCode_none
  · intro hillegal
    cases hdec : decodeCode code with
    | none => rfl
    | some i =>
      rw [decodeCode_eq_some_iff.mp hdec, legalCode_encodeCode] at hillegal
      cases hillegal

/-- A command is read from its one byte, and what follows is handed back (R103). -/
theorem decode_encode_append (i : Instr) (rest : List Byte) : decode (encode i ++ rest) = .ok (i, rest) := by
  simp [encode, decode]

/-- Settles O1: the round trip holds for every command and every rest. -/
theorem decodeEncodeAgree : Obligations.DecodeEncodeAgree :=
  fun i rest _ => decode_encode_append i rest

/-- Settles O2: by the two equivalences of the decoder. -/
theorem everyCodeIsCommandOrIllegal : Obligations.EveryCodeIsCommandOrIllegal :=
  fun _ => ⟨fun _ => decodeCode_eq_some_iff, decodeCode_eq_none_iff⟩

/-- Settles O3: the eight codes written out are the encodings of the eight commands. -/
theorem tableCodesDecode : Obligations.TableCodesDecode :=
  ⟨decode_encode_append .pack [], decode_encode_append .bldhdr [], decode_encode_append .asm [],
    decode_encode_append .encode [], decode_encode_append .getbytes [], decode_encode_append .wrfile [],
    decode_encode_append .wrsink [], decode_encode_append .discard []⟩

/-! ## Illegal codes at the port -/

/-- The port answers a code that selects no command with `IllegalCommand` (R101). -/
theorem runCode_of_decodeCode_none {code : Byte} (h : decodeCode code = none) (s : State) :
    runCode code s = .next (illegalCommand code s) := by
  simp [runCode, h]

/-- The report of an illegal code is all that changes (R101, R194). -/
theorem illegalCommand_eq_endsWith (code : Byte) (s : State) :
    illegalCommand code s = endsWith s 3 (.word (code.setWidth 32)) [] := rfl

/-- Settles O5: an illegal code does not decode, so the port reports it and does nothing else. -/
theorem illegalCodeChangesOnlyReport : Obligations.IllegalCodeChangesOnlyReport := by
  intro s code rest hscript hillegal
  rw [step_command hscript, runCode_of_decodeCode_none (decodeCode_eq_none_iff.mpr hillegal), illegalCommand_eq_endsWith,
    popScript]

end Sys2Proof.Proofs
end

section
/-! The family of `40_bit_packer.md`: the arithmetic of a scanline, what VALIDATE answers, what one SETDOT does, and what PACK
leaves behind. -/

namespace Sys2Proof.Proofs

open Machine

/-! ## The length of a scanline and of the pixel data -/

/-- A scanline holds every column (R62, R120). -/
theorem width_le_rowBytes (w : Nat) : w ≤ 8 * rowBytes w := by
  rw [rowBytes_eq]
  omega

/-- No smaller multiple of 4 holds every column (R120). -/
theorem rowBytes_le_of_dvd {w m : Nat} (hm : 4 ∣ m) (hw : w ≤ 8 * m) : rowBytes w ≤ m := by
  rw [rowBytes_eq]
  omega

/-- A scanline has at most 31 padding bits (R129). -/
theorem rowBytes_padding_le (w : Nat) : 8 * rowBytes w ≤ w + 31 := by
  rw [rowBytes_eq]
  omega

/-- A width that is a multiple of 32 has no padding (R129). -/
theorem rowBytes_of_dvd {w : Nat} (h : 32 ∣ w) : 8 * rowBytes w = w := by
  rw [rowBytes_eq]
  omega

theorem rowBytes_eq_zero_iff {w : Nat} : rowBytes w = 0 ↔ w = 0 := by
  rw [rowBytes_eq]
  omega

/-- Up to 32 columns take one unit of four bytes (R120). -/
theorem rowBytes_eq_four {w : Nat} (h1 : 1 ≤ w) (h2 : w ≤ 32) : rowBytes w = 4 := by
  rw [rowBytes_eq]
  omega

/-- Settles O9: the definition rounds up twice, and both roundings together are one to 32 columns. -/
theorem rowBytesIsLeastMultiple : Obligations.RowBytesIsLeastMultiple :=
  ⟨fun w => ⟨rowAlign_dvd_rowBytes w, width_le_rowBytes w, fun _ => rowBytes_le_of_dvd, rfl, rowBytes_eq w⟩,
    rfl, fun _ => rowBytes_eq_four, rfl, rfl, rfl⟩

/-- Settles O10: a product is 0 when a factor is, and a scanline is a multiple of 4. -/
theorem pixelDataLengthLaws : Obligations.PixelDataLengthLaws := by
  refine ⟨fun w h => ⟨rfl, ?_, ?_⟩, rfl, rfl, rfl⟩
  · rw [pixelDataLength, Nat.mul_eq_zero, rowBytes_eq_zero_iff]
  · exact (rowAlign_dvd_rowBytes w).mul_right h

/-! ## VALIDATE -/

/-- Both dimensions fit their registers (checks 1 and 2 of R123). -/
def DimsFit (m : Matrix) : Prop := srcW m ≤ dimMax ∧ srcH m ≤ dimMax

/-- Every row has the length of the width (check 3 of R123). -/
def RowsEven (m : Matrix) : Prop := ∀ r, r < srcH m → srcRowLen m r = some (srcW m)

/-- The answers of VALIDATE, each with the checks that have passed and the one that has failed (R123). -/
inductive ValidateAnswer (cfg : Config) (m : Matrix) : Except SubCause Dims → Prop where
  | widthRange (hw : dimMax < srcW m) : ValidateAnswer cfg m (.error .widthRange)
  | heightRange (hw : srcW m ≤ dimMax) (hh : dimMax < srcH m) : ValidateAnswer cfg m (.error .heightRange)
  | raggedRow (hdims : DimsFit m) (hrow : ∃ r, r < srcH m ∧ srcRowLen m r ≠ some (srcW m)) :
      ValidateAnswer cfg m (.error .raggedRow)
  | fileSize (hdims : DimsFit m) (heven : RowsEven m) (hsize : dimMax < hdrLen + rowBytes (srcW m) * srcH m) :
      ValidateAnswer cfg m (.error .fileSize)
  | capacity (hdims : DimsFit m) (heven : RowsEven m) (hsize : hdrLen + rowBytes (srcW m) * srcH m ≤ dimMax)
      (hcap : cfg.pixcap < rowBytes (srcW m) * srcH m) : ValidateAnswer cfg m (.error .capacity)
  | accepted (hdims : DimsFit m) (heven : RowsEven m) (hsize : hdrLen + rowBytes (srcW m) * srcH m ≤ dimMax)
      (hcap : rowBytes (srcW m) * srcH m ≤ cfg.pixcap) :
      ValidateAnswer cfg m (.ok ⟨srcW m, srcH m, rowBytes (srcW m), rowBytes (srcW m) * srcH m⟩)

theorem rowsEven_iff {m : Matrix} : RowsEven m ↔ ¬ someRowRagged m (srcW m) (srcH m) = true := by
  rw [Bool.not_eq_true, someRowRagged_false, RowsEven]

/-- What VALIDATE answers is among the answers listed. -/
theorem validate_answer (cfg : Config) (m : Matrix) : ValidateAnswer cfg m (validate cfg m) := by
  fun_cases validate cfg m with
  | case1 w hw => exact .widthRange hw
  | case2 w h hw hh => exact .heightRange (not_lt.mp hw) hh
  | case3 w h hw hh hrow => exact .raggedRow ⟨not_lt.mp hw, not_lt.mp hh⟩ (someRowRagged_true.mp hrow)
  | case4 w h hw hh hrow bpr n hsize => exact .fileSize ⟨not_lt.mp hw, not_lt.mp hh⟩ (rowsEven_iff.mpr hrow) hsize
  | case5 w h hw hh hrow bpr n hsize hcap =>
    exact .capacity ⟨not_lt.mp hw, not_lt.mp hh⟩ (rowsEven_iff.mpr hrow) (not_lt.mp hsize) hcap
  | case6 w h hw hh hrow bpr n hsize hcap =>
    exact .accepted ⟨not_lt.mp hw, not_lt.mp hh⟩ (rowsEven_iff.mpr hrow) (not_lt.mp hsize) (not_lt.mp hcap)

/-- The conditions of an answer leave VALIDATE no other. -/
theorem validate_eq_of_answer {cfg : Config} {m : Matrix} {x : Except SubCause Dims} (h : ValidateAnswer cfg m x) :
    validate cfg m = x := by
  unfold validate
  cases h with
  | widthRange hw => exact if_pos hw
  | heightRange hw hh => rw [if_neg hw.not_gt, if_pos hh]
  | raggedRow hdims hrow => rw [if_neg hdims.1.not_gt, if_neg hdims.2.not_gt, if_pos (someRowRagged_true.mpr hrow)]
  | fileSize hdims heven hsize =>
    rw [if_neg hdims.1.not_gt, if_neg hdims.2.not_gt, if_neg (rowsEven_iff.mp heven), if_pos hsize]
  | capacity hdims heven hsize hcap =>
    rw [if_neg hdims.1.not_gt, if_neg hdims.2.not_gt, if_neg (rowsEven_iff.mp heven), if_neg hsize.not_gt, if_pos hcap]
  | accepted hdims heven hsize hcap =>
    rw [if_neg hdims.1.not_gt, if_neg hdims.2.not_gt, if_neg (rowsEven_iff.mp heven), if_neg hsize.not_gt, if_neg hcap.not_gt]

theorem validate_eq_iff {cfg : Config} {m : Matrix} {x : Except SubCause Dims} :
    validate cfg m = x ↔ ValidateAnswer cfg m x :=
  ⟨fun h => h ▸ validate_answer cfg m, validate_eq_of_answer⟩

/-- Settles O11: one clause for each answer of VALIDATE, with the conditions of that answer. -/
theorem validateReportsFirstFailure : Obligations.ValidateReportsFirstFailure := fun _ _ =>
  ⟨validate_eq_iff.trans ⟨fun | .widthRange hw => hw, .widthRange⟩,
    validate_eq_iff.trans ⟨fun | .heightRange hw hh => ⟨hw, hh⟩, fun ⟨hw, hh⟩ => .heightRange hw hh⟩,
    validate_eq_iff.trans ⟨fun | .raggedRow hdims hrow => ⟨hdims, hrow⟩, fun ⟨hdims, hrow⟩ => .raggedRow hdims hrow⟩,
    validate_eq_iff.trans ⟨fun | .fileSize hdims heven hsize => ⟨hdims, heven, hsize⟩,
      fun ⟨hdims, heven, hsize⟩ => .fileSize hdims heven hsize⟩,
    validate_eq_iff.trans ⟨fun | .capacity hdims heven hsize hcap => ⟨hdims, heven, hsize, hcap⟩,
      fun ⟨hdims, heven, hsize, hcap⟩ => .capacity hdims heven hsize hcap⟩,
    fun _ => validate_eq_iff.trans ⟨fun | .accepted hdims heven hsize hcap => ⟨hdims, heven, hsize, hcap, rfl⟩,
      fun ⟨hdims, heven, hsize, hcap, hd⟩ => hd ▸ .accepted hdims heven hsize hcap⟩⟩

/-! ## One SETDOT -/

/-- Where SETDOT completes, its cell is defined, its byte lies in `PIX`, and it has ORed the dot into it (R124). -/
theorem setDot_ok {r c : Nat} {s t : State} (h : setDot r c s = .ok t) :
    ∃ cell, srcCell s.config s.env.matrix r c = some cell ∧
      dotOffset s.eng.height.toNat s.eng.bpr.toNat r c < s.eng.pix.length ∧
      t = s.setSpace .pix
        (s.eng.pix.modify (dotOffset s.eng.height.toNat s.eng.bpr.toNat r c) (· ||| dotMask (dotOf cell) (dotPos c))) := by
  cases hcell : srcCell s.config s.env.matrix r c with
  | none => simp [setDot, hcell] at h
  | some cell =>
    by_cases hoff : dotOffset s.eng.height.toNat s.eng.bpr.toNat r c < s.eng.pix.length
    · rw [setDot_eq hcell hoff] at h
      cases h
      exact ⟨cell, rfl, hoff, rfl⟩
    · have hread : memRead .pix (dotOffset s.eng.height.toNat s.eng.bpr.toNat r c) 1 s = .error .spaceRange :=
        if_neg (by simpa using hoff)
      simp [setDot, hcell, hread] at h

/-- The changed offset of `PIX` reads as changed. -/
theorem readByte_modify_same {s : State} {off : Nat} {old : Byte} (f : Byte → Byte) (h : readByte .pix off s = some old) :
    readByte .pix off (s.setSpace .pix (s.eng.pix.modify off f)) = some (f old) :=
  (List.getElem?_modify_eq f off s.eng.pix).trans (congrArg (Option.map f) h)

/-- Every other offset of `PIX` reads as before. -/
theorem readByte_modify_of_ne {off a : Nat} (hne : off ≠ a) (s : State) (f : Byte → Byte) :
    readByte .pix a (s.setSpace .pix (s.eng.pix.modify off f)) = readByte .pix a s :=
  List.getElem?_modify_ne f s.eng.pix hne

/-- Settles O13: by what SETDOT does to the list of bytes. -/
theorem setDotOrsOneBit : Obligations.SetDotOrsOneBit := by
  intro s r c cell old hcell hold
  have hoff : dotOffset s.eng.height.toNat s.eng.bpr.toNat r c < s.eng.pix.length := (List.getElem?_eq_some_iff.mp hold).1
  exact ⟨_, setDot_eq hcell hoff, readByte_modify_same _ hold, fun a ha => readByte_modify_of_ne ha.symm s _, rfl⟩

/-- Two cells with one byte and one bit are one cell (R130). -/
theorem cell_unique {h bpr w r c r' c' : Nat} (hb : bpr = rowBytes w) (hr : r < h) (hc : c < w) (hr' : r' < h) (hc' : c' < w)
    (hoff : dotOffset h bpr r c = dotOffset h bpr r' c') (hpos : dotPos c = dotPos c') : r = r' ∧ c = c' := by
  obtain ⟨hline, hbyte⟩ := scanline_unique (hb ▸ byte_lt_rowBytes hc) (hb ▸ byte_lt_rowBytes hc') hoff
  unfold dotPos at hpos
  omega

/-- A cell whose bit is unchanged in a buffer of the same length unpacks to the same dot. -/
theorem unpackDot_congr {p q : List Byte} {w h r c : Nat} (hl : p.length = q.length)
    (hbit : bitAt p (dotOffset h (rowBytes w) r c) (dotPos c) = bitAt q (dotOffset h (rowBytes w) r c) (dotPos c)) :
    unpackDot p w h r c = unpackDot q w h r c := by
  unfold dotOffset dotPos at hbit
  by_cases hlt : (h - 1 - r) * rowBytes w + c / 8 < p.length
  · rw [unpackDot_eq _ _ _ _ _ hlt, unpackDot_eq _ _ _ _ _ (hl ▸ hlt), hbit]
  · rw [unpackDot, unpackDot, List.getElem?_eq_none (by omega), List.getElem?_eq_none (by omega)]

/-- The byte of a cell lies in the cell's own scanline (R130). -/
theorem dotOffset_mem_scanline {h bpr w r c : Nat} (hb : bpr = rowBytes w) (hr : r < h) (hc : c < w) :
    (h - 1 - r) * bpr ≤ dotOffset h bpr r c ∧ dotOffset h bpr r c < (h - r) * bpr := by
  have hbyte : c / 8 < bpr := hb ▸ byte_lt_rowBytes hc
  have hnext : (h - r) * bpr = (h - 1 - r) * bpr + bpr := by
    rw [← Nat.succ_mul]
    congr 1
    omega
  rw [hnext, dotOffset]
  omega

/-- Settles O14: the one byte that SETDOT writes is in its scanline, and in it the mask has no bit but the cell's own. -/
theorem setDotLeavesOtherCellsAlone : Obligations.SetDotLeavesOtherCellsAlone := by
  intro s t r c hb hr hc hrun
  obtain ⟨cell, -, hoff, rfl⟩ := setDot_ok hrun
  obtain ⟨hfirst, hlast⟩ := dotOffset_mem_scanline hb hr hc
  refine ⟨fun a ha => ?_, fun r' c' hr' hc' hne => unpackDot_congr (List.length_modify ..) ?_⟩
  · exact readByte_modify_of_ne (by omega) s _
  · rw [← hb, setPix_pix, bitAt_modify hoff, dotMask_getLsbD _ _ _ (dotPos_lt c)]
    by_cases ho : dotOffset s.eng.height.toNat s.eng.bpr.toNat r c = dotOffset s.eng.height.toNat s.eng.bpr.toNat r' c'
    · have hp : dotPos c ≠ dotPos c' := fun hp => by
        obtain ⟨hrow, hcol⟩ := cell_unique hb hr hc hr' hc' ho hp
        exact hne.elim (· hrow.symm) (· hcol.symm)
      simp [hp]
    · simp [ho]

/-! ## PACK of a matrix that VALIDATE accepts -/

/-- PACK of a matrix that VALIDATE accepts ends with `OK` at the packed state (R126). -/
theorem exec_pack_of_validate {s : State} {d : Dims} (h : validate s.config s.env.matrix = .ok d) :
    exec .pack s = .next ((s.packed d).respond okCode (.word 0) []) := by
  change (packStage s).finish = _
  rw [packStage_ok h, finish_done]

/-- Settles O15: the packed state, with its report, written out field by field. -/
theorem packBuildsPixelData : Obligations.PackBuildsPixelData :=
  fun _ _ h => exec_pack_of_validate h

/-- A PACK after which `PIXV` is set has passed VALIDATE (R33, R126). -/
theorem packed_of_exec_pack {s t : State} (h : exec .pack s = .next t) (hpixv : t.eng.pixv = true) :
    ∃ d, Validated s.config s.env.matrix d ∧ t = (s.packed d).respond okCode (.word 0) [] := by
  rcases execPack_cases h with ⟨d, -, v, rfl⟩ | ⟨sub, -, rfl⟩
  · exact ⟨d, v, rfl⟩
  · simp at hpixv

/-- The OR of R88 over all eight lanes, written out. -/
theorem pixelByte_eq (cfg : Config) (m : Matrix) (w h line j : Nat) :
    pixelByte cfg m w h line j =
      let lane := fun k : Nat =>
        if 8 * j + k < w then BitVec.ofNat 8 (matrixDot cfg m (h - 1 - line) (8 * j + k) <<< (7 - k)) else 0#8
      lane 0 ||| lane 1 ||| lane 2 ||| lane 3 ||| lane 4 ||| lane 5 ||| lane 6 ||| lane 7 := by
  simp [pixelByte, laneOr, dotMask]

/-- Settles O16: each byte of the closed form is the OR of its lanes. -/
theorem pixBytesAreOrOfLanes : Obligations.PixBytesAreOrOfLanes := by
  intro s t h hpixv
  obtain ⟨d, v, rfl⟩ := packed_of_exec_pack h hpixv
  simp only [respond_width, respond_height, respond_bpr, respond_pdlen, respond_pix, packed_width, packed_height, packed_bpr,
    packed_pdlen, packed_pix, toNat_toWord v.w_le, toNat_toWord v.h_le, toNat_toWord v.bpr_le, toNat_toWord v.n_le_dimMax]
  refine ⟨v.w_eq, v.h_eq, by rw [v.bpr_eq, v.w_eq], by rw [v.n_eq, v.bpr_eq, v.w_eq, v.h_eq], pixelData_length _ _ _,
    fun line j hline hj => ?_⟩
  exact (pixelData_get _ _ _ v.n_eq hline hj).trans (congrArg some (pixelByte_eq _ _ _ _ _ _))

/-- Settles O17: a bit is set exactly when some cell of the sequence hits it, in whatever place. -/
theorem packOrderIndependent : Obligations.PackOrderIndependent := by
  intro s d l hval hperm
  have v := validate_ok hval
  have hcells : ∀ rc ∈ allCells d.h d.w, rc.1 < d.h ∧ rc.2 < d.w := fun rc => mem_allCells.mp
  obtain ⟨p, hp, hplen, hpbits⟩ := setDots_zeroed v l fun rc hrc => hcells rc (hperm.mem_iff.mp hrc)
  obtain ⟨q, hq, hqlen, hqbits⟩ := setDots_zeroed v (allCells d.h d.w) hcells
  have hpq : p = q := eq_of_bitAt (hplen.trans hqlen.symm) fun a k _ _ => by rw [hpbits, hqbits, hperm.any_eq]
  rw [setAllDots_eq]
  exact hp.trans (hpq ▸ hq.symm)

/-- The bits of the closed form (R88). -/
theorem bitAt_pixelData {cfg : Config} {m : Matrix} {d : Dims} (v : Validated cfg m d) {line j k : Nat} (hl : line < d.h)
    (hj : j < d.bpr) (hk : k < 8) :
    bitAt (pixelData cfg m d) (line * d.bpr + j) k =
      (decide (8 * j + (7 - k) < d.w) && decide (matrixDot cfg m (d.h - 1 - line) (8 * j + (7 - k)) = 1)) := by
  have hlane : 7 - k < 8 := by omega
  rw [bitAt, pixelData_get _ _ _ v.n_eq hl hj, Option.getD_some, pixelByte, laneOr_getLsbD _ _ _ _ _ _ _ le_rfl hk,
    decide_eq_true hlane, Bool.true_and]

/-- The bit of a cell in the closed form is the cell's dot (R88, R127). -/
theorem bitAt_pixelData_dot {cfg : Config} {m : Matrix} {d : Dims} (v : Validated cfg m d) {r c : Nat} (hr : r < d.h)
    (hc : c < d.w) :
    bitAt (pixelData cfg m d) (dotOffset d.h d.bpr r c) (dotPos c) = decide (matrixDot cfg m r c = 1) := by
  have hrow : d.h - 1 - (d.h - 1 - r) = r := by omega
  have hcol : 8 * (c / 8) + (7 - dotPos c) = c := by unfold dotPos; omega
  have hj : c / 8 < d.bpr := v.bpr_eq ▸ byte_lt_rowBytes hc
  rw [dotOffset, bitAt_pixelData v (by omega) hj (dotPos_lt c), hrow, hcol, decide_eq_true hc, Bool.true_and]

/-- A dot is 0 or 1, so it is the number of its bit. -/
theorem toNat_decide_dotOf (cell : Nat) : (decide (dotOf cell = 1)).toNat = dotOf cell := by
  rw [dotOf_eq]
  rcases Nat.mod_two_eq_zero_or_one cell with h | h <;> simp [h]

/-- UNPACK of the closed form gives the dot of each cell (R132). -/
theorem unpackDot_pixelData {cfg : Config} {m : Matrix} {d : Dims} (v : Validated cfg m d) {r c cell : Nat} (hr : r < d.h)
    (hc : c < d.w) (hcell : srcCell cfg m r c = some cell) :
    unpackDot (pixelData cfg m d) d.w d.h r c = some (dotOf cell) := by
  have hlt : dotOffset d.h (rowBytes d.w) r c < (pixelData cfg m d).length := by
    rw [pixelData_length, v.n_eq, v.bpr_eq]
    exact dotOffset_lt hr hc rfl
  have hbit := bitAt_pixelData_dot v hr hc
  rw [v.bpr_eq, matrixDot_of_cell hcell] at hbit
  rw [unpackDot_eq _ _ _ _ _ hlt]
  exact congrArg some ((congrArg Bool.toNat hbit).trans (toNat_decide_dotOf cell))

/-- Settles O18: the round trip on the closed form. -/
theorem unpackRecoversEveryDot : Obligations.UnpackRecoversEveryDot := by
  intro s t h hpixv r c hr hc
  obtain ⟨d, v, rfl⟩ := packed_of_exec_pack h hpixv
  rw [← v.h_eq] at hr
  rw [← v.w_eq] at hc
  obtain ⟨cell, hcell⟩ := v.cell hr hc
  refine ⟨cell, hcell, ?_⟩
  rw [respond_pix, respond_width, respond_height, packed_pix, packed_width, packed_height, toNat_toWord v.w_le,
    toNat_toWord v.h_le]
  exact unpackDot_pixelData v hr hc hcell

/-- A byte past the last column is 0 where the padding is (R129). -/
theorem paddingZero_byte {pix : List Byte} {w h bpr line j : Nat} (hpad : PaddingZero pix w h bpr) (hl : line < h)
    (hj : j < bpr) (hw : w ≤ 8 * j) {b : Byte} (hb : pix[line * bpr + j]? = some b) : b = 0 := by
  refine BitVec.eq_of_getLsbD_eq fun k hk => ?_
  have hbit := hpad line j (7 - k) hl hj (by omega) (by omega) b hb
  rw [show 7 - (7 - k) = k by omega] at hbit
  simpa using hbit

/-- Settles O19: by the invariant that PACK establishes, and the arithmetic of a scanline. -/
theorem packPadsWithZeros : Obligations.PackPadsWithZeros := by
  intro s t h hpixv
  obtain ⟨d, v, rfl⟩ := packed_of_exec_pack h hpixv
  have hinv : PackedInv (s.packed d) := packed_packedInv v
  simp only [respond_width, respond_height, respond_bpr, respond_pix]
  have hbpr := hinv.bpr_eq
  refine ⟨hinv.padding, fun line j hl hj hpast => ?_, ?_, ?_, fun hdvd => ?_⟩
  · have hlt : line * (s.packed d).eng.bpr.toNat + j < (s.packed d).eng.pix.length := by
      rw [hinv.pix_length, hinv.pdlen_eq]
      exact scanline_lt hl hj
    have hget := List.getElem?_eq_getElem hlt
    exact hget.trans (congrArg some (paddingZero_byte hinv.padding hl hj (by omega) hget))
  · exact hbpr ▸ width_le_rowBytes _
  · exact hbpr ▸ rowBytes_padding_le _
  · exact hbpr ▸ rowBytes_of_dvd hdvd

/-- Settles O20: no check can fail, for the pixel data have length 0. -/
theorem zeroSizedMatrixPacksToNothing : Obligations.ZeroSizedMatrixPacksToNothing := by
  intro s hzero hw hh hrows
  have hn : rowBytes (srcW s.env.matrix) * srcH s.env.matrix = 0 := by
    rw [Nat.mul_eq_zero, rowBytes_eq_zero_iff]
    exact hzero
  have hval := validate_eq_of_answer (cfg := s.config) (.accepted ⟨hw, hh⟩ hrows (by rw [hn]; decide) (hn ▸ Nat.zero_le _))
  have v := validate_ok hval
  refine ⟨_, exec_pack_of_validate hval, rfl, rfl, ?_, ?_, toNat_toWord v.w_le, toNat_toWord v.h_le, toNat_toWord v.bpr_le⟩
  · exact List.eq_nil_of_length_eq_zero ((pixelData_length _ _ _).trans hn)
  · exact congrArg toWord hn

/-! ## A matrix that VALIDATE refuses -/

/-- PACK and ENCODE of a matrix that VALIDATE refuses end with `InvalidDimension` at an unspecified state (R126, R172). -/
theorem exec_of_validate_error {s : State} {sub : SubCause} (h : validate s.config s.env.matrix = .error sub) {i : Instr}
    (hi : i = .pack ∨ i = .encode) : exec i s = .next (takeError (.invalidDimension sub) s.clearValid.unspecify) := by
  rcases hi with rfl | rfl
  · change (packStage s).finish = _
    rw [packStage_error h, finish_raised]
  · change (((packStage s).andThen bldhdrStage).andThen asmStage).finish = _
    rw [packStage_error h, andThen_raised, andThen_raised, finish_raised]

/-- Settles O22: the fields of the state that the error leaves. -/
theorem invalidMatrixClearsFlags : Obligations.InvalidMatrixClearsFlags :=
  fun _ _ h _ hi => ⟨_, exec_of_validate_error h hi, rfl, rfl, rfl, rfl, rfl, rfl, rfl, rfl, rfl⟩

/-! ## What PACK depends on -/

/-- Settles O21: the answers of VALIDATE are equal, and where it accepts the pixel data are. -/
theorem packDependsOnDotsOnly : Obligations.PackDependsOnDotsOnly := by
  intro s s' t t' hdots hcap h h'
  have hval := validate_congr hdots hcap
  cases hs : validate s.config s.env.matrix with
  | ok d =>
    rw [exec_pack_of_validate hs] at h
    rw [exec_pack_of_validate (hval.symm.trans hs)] at h'
    cases h
    cases h'
    simp [pixelData_congr hdots d]
  | error sub =>
    rw [exec_of_validate_error hs (.inl rfl)] at h
    rw [exec_of_validate_error (hval.symm.trans hs) (.inl rfl)] at h'
    cases h
    cases h'
    simp

end Sys2Proof.Proofs
end

section
/-! The family of `41_header_builder.md`: what BuildHeaders gives and where, how BLDHDR ends, and how the header it leaves reads. -/

namespace Sys2Proof.Proofs

open Machine

/-! ## BuildHeaders -/

/-- Outside its bounds BuildHeaders gives an error (log 9). -/
theorem buildHeaders_of_not_le {w h n : Nat} (hout : ¬ (w ≤ dimMax ∧ h ≤ dimMax ∧ n ≤ 2 ^ 32 - 63)) :
    buildHeaders w h n = .error .headerRange := if_neg hout

/-- Settles O24: the three parts have their lengths by construction, and one after the other they are the template. -/
theorem buildHeadersGivesTemplate : Obligations.BuildHeadersGivesTemplate := by
  intro w h n
  constructor
  · rintro ⟨hw, hh, hn⟩
    exact ⟨_, _, _, buildHeaders_of_le hw hh hn, fileHeader_length n, infoHeader_length w h n, colourTable_length,
      headerParts_eq_template w h n⟩
  · exact fun hout => ⟨_, buildHeaders_of_not_le hout⟩

/-! ## How BLDHDR ends -/

/-- With dimensions latched BLDHDR ends with `OK` at the state that has the header (R140). -/
theorem exec_bldhdr_of_pixv {s : State} (hpixv : s.eng.pixv = true) (hlen : s.eng.hdr.length = 62)
    (hpdlen : s.eng.pdlen.toNat ≤ 2 ^ 32 - 63) : exec .bldhdr s = .next (s.withHeader.respond okCode (.word 0) []) := by
  change (bldhdrStage s).finish = _
  rw [bldhdrStage_held hpixv hlen hpdlen, finish_done]

/-- Without them it ends with `SequenceError`, and the error entry is all that changes the state (R140). -/
theorem exec_bldhdr_of_not_pixv {s : State} (hpixv : s.eng.pixv = false) :
    exec .bldhdr s = .next (takeError (.sequenceError 0x02#8) s) := by
  change (bldhdrStage s).finish = _
  rw [bldhdrStage_not_held hpixv, finish_raised]

/-- Settles O25: the two ends of BLDHDR, written out field by field. -/
theorem bldhdrWritesHeader : Obligations.BldhdrWritesHeader :=
  fun _ => ⟨exec_bldhdr_of_pixv, exec_bldhdr_of_not_pixv⟩

/-! ## The fields of the header -/

theorem field4_headerTemplate_width {w : Nat} (hw : w < 2 ^ 32) (h n : Nat) : field4 (headerTemplate w h n) 18 = w := by
  rw [field4, template_width, leNat_le32 hw]

theorem field4_headerTemplate_height {h : Nat} (hh : h < 2 ^ 32) (w n : Nat) : field4 (headerTemplate w h n) 22 = h := by
  rw [field4, template_height, leNat_le32 hh]

theorem field4_headerTemplate_imageSize {n : Nat} (hn : n < 2 ^ 32) (w h : Nat) : field4 (headerTemplate w h n) 34 = n := by
  rw [field4, template_imageSize, leNat_le32 hn]

theorem template_colourTable (w h n : Nat) :
    (headerTemplate w h n).drop 54 = [0x00#8, 0x00#8, 0x00#8, 0x00#8, 0xFF#8, 0xFF#8, 0xFF#8, 0x00#8] := rfl

/-- A BLDHDR that ends with `OK` leaves the header of the registers, which it does not change (R140, R160). -/
theorem hdr_of_exec_bldhdr {s t : State} (hlen : s.eng.hdr.length = 62) (h : exec .bldhdr s = .next t)
    (herr : t.eng.err = 0) : t.eng.hdr = t.headerBytes ∧ t.eng.pdlen = s.eng.pdlen := by
  rcases execBldhdr_cases h with ⟨-, rfl⟩ | ⟨-, -, -, rfl⟩
  · simp [errorCode] at herr
  · simp [List.drop_eq_nil_of_le hlen.le, State.headerBytes]

/-! ## The bytes outside the four fields -/

/-- Byte sequences that agree on a slice agree at each offset in it. -/
theorem getElem?_eq_of_slice_eq {l l' : List Byte} {offset n a : Nat}
    (hslice : (l.drop offset).take n = (l'.drop offset).take n) (hfirst : offset ≤ a) (hlast : a < offset + n) :
    l[a]? = l'[a]? := by
  have slice_get (x : List Byte) : ((x.drop offset).take n)[a - offset]? = x[a]? := by
    rw [List.getElem?_take_of_lt (by omega), List.getElem?_drop, Nat.add_sub_cancel' hfirst]
  rw [← slice_get l, ← slice_get l', hslice]

/-- The four slices beside the fields, 46 bytes in all, are the same in every header (R90). -/
theorem template_constant_slices (w h n w' h' n' : Nat) :
    ∀ slice ∈ [(0, 2), (6, 12), (26, 8), (38, 24)],
      ((headerTemplate w h n).drop slice.1).take slice.2 = ((headerTemplate w' h' n').drop slice.1).take slice.2 := by
  simp [headerTemplate, le32]

/-- An offset outside the four fields lies in one of the slices beside them or past the end, so its byte is constant (R160). -/
theorem template_getElem?_constant (w h n w' h' n' : Nat) {a : Nat} (hsize : ¬ (2 ≤ a ∧ a ≤ 5)) (hwidth : ¬ (18 ≤ a ∧ a ≤ 21))
    (hheight : ¬ (22 ≤ a ∧ a ≤ 25)) (himage : ¬ (34 ≤ a ∧ a ≤ 37)) :
    (headerTemplate w h n)[a]? = (headerTemplate w' h' n')[a]? := by
  have hslices := template_constant_slices w h n w' h' n'
  obtain hlt | ⟨hge, hlt⟩ | ⟨hge, hlt⟩ | ⟨hge, hlt⟩ | hpast :
      a < 2 ∨ (6 ≤ a ∧ a < 18) ∨ (26 ≤ a ∧ a < 34) ∨ (38 ≤ a ∧ a < 62) ∨ 62 ≤ a := by omega
  · exact getElem?_eq_of_slice_eq (hslices (0, 2) (by decide)) (Nat.zero_le a) hlt
  · exact getElem?_eq_of_slice_eq (hslices (6, 12) (by decide)) hge hlt
  · exact getElem?_eq_of_slice_eq (hslices (26, 8) (by decide)) hge hlt
  · exact getElem?_eq_of_slice_eq (hslices (38, 24) (by decide)) hge hlt
  · have none_past (w h n : Nat) : (headerTemplate w h n)[a]? = none :=
      List.getElem?_eq_none ((headerTemplate_length w h n).le.trans hpast)
    rw [none_past, none_past]

/-- Settles O26: `HDR` is the header of the registers, so its fields are those of the template, which fit. -/
theorem headerFieldsAfterBldhdr : Obligations.HeaderFieldsAfterBldhdr := by
  refine ⟨fun s t hpdlen hlen h herr => ?_, fun w h n w' h' n' _ => template_getElem?_constant w h n w' h' n'⟩
  obtain ⟨hhdr, hkept⟩ := hdr_of_exec_bldhdr hlen h herr
  rw [← hkept] at hpdlen
  obtain ⟨hsignature, hdataOffset, -⟩ := headerBytes_constants t
  have hsize : field4 t.headerBytes 2 = 62 + t.eng.pdlen.toNat := field4_headerTemplate_fileSize hpdlen
  have himage : field4 t.headerBytes 34 = t.eng.pdlen.toNat := field4_headerTemplate_imageSize t.eng.pdlen.isLt _ _
  rw [hhdr]
  refine ⟨hsignature, hsize, hdataOffset, field4_headerTemplate_width t.eng.width.isLt _ _,
    field4_headerTemplate_height t.eng.height.isLt _ _, himage, template_colourTable _ _ _, ?_, rfl⟩
  rw [hsize, hdataOffset, himage, Nat.add_sub_cancel_left]

end Sys2Proof.Proofs
end

section
/-! The family of `42_assembler_and_sinks.md`: how ASM and ENCODE end, what the three outputs deliver and what a failed one leaves
behind, and what DISCARD and the host's own actions do. -/

namespace Sys2Proof.Proofs

open Machine

/-! ## A result that is not held -/

/-- The first line of a command ends it where its result is not held (R193). -/
theorem finish_needs_of_not_held {held : Bool} (h : (!held) = true) (i : Instr) (s : State) (rest : State → Stage) :
    (needs held i s rest).finish = .next (takeError (.sequenceError (encodeCode i)) s) := by
  rw [(Bool.not_eq_true' held).mp h, needs_not_held, finish_raised]

/-- A command whose result is not held ends with `SequenceError` and its own code, at the state it began in (R193). -/
theorem exec_of_lacksResult {i : Instr} {s : State} (h : lacksResult i s = true) :
    exec i s = .next (takeError (.sequenceError (encodeCode i)) s) := by
  cases i with
  | pack => cases h
  | encode => cases h
  | discard => cases h
  | bldhdr => exact finish_needs_of_not_held h .bldhdr s _
  | asm => exact finish_needs_of_not_held (by rwa [Bool.not_and]) .asm s _
  | getbytes => exact finish_needs_of_not_held h .getbytes s _
  | wrfile => exact finish_needs_of_not_held h .wrfile s _
  | wrsink => exact finish_needs_of_not_held h .wrsink s _

/-- Without a held file the three outputs end with `SequenceError`, each with its own code (R175, R178, R180). -/
theorem outputs_of_not_filev {s : State} (h : s.eng.filev = false) :
    exec .getbytes s = .next (endsWith s 4 (.word 0x05) []) ∧
    exec .wrfile s = .next (endsWith s 4 (.word 0x06) []) ∧
    exec .wrsink s = .next (endsWith s 4 (.word 0x07) []) := by
  have lacks : (!s.eng.filev) = true := (Bool.not_eq_true' _).mpr h
  exact ⟨exec_of_lacksResult (i := .getbytes) lacks, exec_of_lacksResult (i := .wrfile) lacks,
    exec_of_lacksResult (i := .wrsink) lacks⟩

/-! ## ASM and ENCODE -/

/-- With both inputs held ASM ends with `OK` at the state that has the file (R170). -/
theorem exec_asm_of_held {s : State} (hpixv : s.eng.pixv = true) (hhdrv : s.eng.hdrv = true) (hhdr : s.eng.hdr.length = 62)
    (hpix : s.eng.pix.length = s.eng.pdlen.toNat) : exec .asm s = .next (s.assembled.respond okCode (.word 0) []) := by
  change (asmStage s).finish = _
  rw [asmStage_held (by rw [hpixv, hhdrv]; rfl) hhdr hpix, finish_done]

/-- Settles O27: the two ends of ASM, written out field by field. -/
theorem asmConcatenates : Obligations.AsmConcatenates := by
  refine fun s => ⟨exec_asm_of_held, fun h => ?_⟩
  exact exec_of_lacksResult (i := .asm) (lacksResult_asm (Bool.and_eq_false_iff.mpr h))

/-- ENCODE of a matrix that VALIDATE accepts ends with `OK` at the encoded state (R172). -/
theorem exec_encode_of_validate {s : State} {d : Dims} (h : validate s.config s.env.matrix = .ok d)
    (hhdr : 62 ≤ s.eng.hdr.length) : exec .encode s = .next ((s.encoded d).respond okCode (.word 0) []) := by
  change (((packStage s).andThen bldhdrStage).andThen asmStage).finish = _
  rw [encodeStages_ok h hhdr, finish_done]

/-- Settles O30: the encoded state, with its report, written out field by field; `HDR` has no byte past its 62. -/
theorem encodeBuildsFile : Obligations.EncodeBuildsFile := by
  intro s d hval hhdr
  rw [exec_encode_of_validate hval hhdr.ge, State.encoded, List.drop_eq_nil_of_le hhdr.le, List.append_nil]
  rfl

/-- What ASM puts together after BLDHDR of a packed matrix is the file that ENCODE makes (R172, R173). -/
theorem file_of_three_stages {cfg : Config} {m : Matrix} {d : Dims} (v : Validated cfg m d) (past : List Byte) :
    (headerTemplate d.w d.h d.n ++ past).take 62 ++ (pixelData cfg m d).take (toWord d.n).toNat =
      headerTemplate d.w d.h d.n ++ pixelData cfg m d := by
  rw [List.take_left' (headerTemplate_length d.w d.h d.n), toNat_toWord v.n_le_dimMax,
    List.take_of_length_le (pixelData_length cfg m d).le]

/-- Settles O31: the three commands leave the encoded state but for the record of responses. -/
theorem encodeEqualsThreeCommands : Obligations.EncodeEqualsThreeCommands := by
  intro s s₁ s₂ s₃ hpack herr hbldhdr hasm
  rcases execPack_cases hpack with ⟨d, hval, v, rfl⟩ | ⟨sub, -, rfl⟩
  · rcases execBldhdr_cases hbldhdr with ⟨hpixv, -⟩ | ⟨-, hhdr, -, rfl⟩
    · cases hpixv
    · rcases execAsm_cases hasm with ⟨hheld, -⟩ | ⟨-, -, -, -, rfl⟩
      · cases hheld
      · have hheader : ((s.packed d).respond okCode (.word 0) []).headerBytes = headerTemplate d.w d.h d.n :=
          packed_headerBytes (s := s) v
        have hfile := file_of_three_stages v (s.eng.hdr.drop 62)
        rw [exec_encode_of_validate hval hhdr, State.encoded, hheader, ← hfile]
        rfl
  · simp [errorCode] at herr

/-- Settles O33: an ENCODE that fails has cleared `FILEV`. -/
theorem failedEncodeLeavesNothingToOutput : Obligations.FailedEncodeLeavesNothingToOutput := by
  intro s t h herr
  rcases execEncode_cases h with ⟨d, -, -, -, rfl⟩ | ⟨sub, -, rfl⟩
  · exact absurd rfl herr
  · exact outputs_of_not_filev rfl

/-! ## GETBYTES and DISCARD -/

/-- Settles O34: with a held file GETBYTES reads it and ends there; without one it ends at its first line. -/
theorem getbytesReturnsFile : Obligations.GetbytesReturnsFile := by
  refine fun s => ⟨fun hfilev hread => ?_, fun hfilev => (outputs_of_not_filev hfilev).1⟩
  change execGetbytes s = _
  rw [execGetbytes_eq, hfilev, needs_held, getbytesBody, heldFile_of_le hread, ofExcept_ok, finish_done]
  rfl

/-- Settles O42: the fields of the state that DISCARD leaves, in which no file is held. -/
theorem discardDropsEveryResult : Obligations.DiscardDropsEveryResult :=
  fun s => ⟨_, execDiscard_eq s, rfl, rfl, rfl, rfl, rfl, rfl, rfl, rfl, rfl, (outputs_of_not_filev rfl).1⟩

/-! ## Every end of WRFILE and of WRSINK -/

/-- A file that can be read has all its `62 + PDLEN` bytes. -/
theorem fileBytes_length {s : State} (h : FileReadable s) : (fileBytes s).length = 62 + s.eng.pdlen.toNat :=
  List.length_take_of_le h

/-- Every way WRFILE can end: the state it leaves, and the sink of the held name in it (R178, R179, R181). -/
inductive WrfileEnd (s : State) : State → Prop where
  /-- No file is held (R193). -/
  | lacking (hfilev : s.eng.filev = false) : WrfileEnd s (takeError (.sequenceError 0x06#8) s)
  /-- The open fails: no sink is touched. -/
  | openFailed (u : State) (cause : Cause) (hopen : (sinkOpen s.env.path s).1 = .fail 0 cause)
      (hsinks : ∀ ref, u.sink ref = s.sink ref) : WrfileEnd s (takeError (.ioFailure cause) u)
  /-- Every call is answered `Ok`: the sink holds the file. -/
  | delivered (u : State) (hopen : (sinkOpen s.env.path s).1 = .ok)
      (hsink : u.sink (.named s.env.path) = { isOpen := false, content := fileBytes s }) :
      WrfileEnd s (u.respond okCode (.word 0) [])
  /-- The write or the close fails: the sink holds the bytes that the write took. -/
  | cutShort (u : State) (k : Nat) (cause : Cause) (hopen : (sinkOpen s.env.path s).1 = .ok) (hk : k ≤ (fileBytes s).length)
      (hatomic : s.config.sinkAtomic = true → k = 0 ∨ k = (fileBytes s).length)
      (hsink : u.sink (.named s.env.path) = { isOpen := false, content := (fileBytes s).take k }) :
      WrfileEnd s (takeError (.ioFailure cause) u)

/-- With a held file WRFILE stops only where the space `FILE` is too short to be read, else it has one of the ends above. -/
theorem wrfileBody_ends {s : State} (hw : Memory.wf s) :
    (∃ f, (wrfileBody s).finish = .fault f ∧ ¬ FileReadable s) ∨
      ∃ t, (wrfileBody s).finish = .next t ∧ WrfileEnd s t := by
  rcases wrfileBody_cases hw with ⟨f, hstop, hshort⟩ | ⟨u, -, -, hothers, ⟨cause, hraised, hopen, hsame⟩ |
    ⟨hdone, hopen, -, hsink⟩ | ⟨k, cause, hraised, hopen, hread, hk, hatomic, hsink⟩⟩
  · exact .inl ⟨f, by rw [hstop, finish_stop], hshort.not_ge⟩
  · refine .inr ⟨_, by rw [hraised, finish_raised], .openFailed u cause hopen fun ref => ?_⟩
    by_cases href : ref = .named s.env.path
    · rw [href, hsame]
    · exact hothers ref href
  · exact .inr ⟨_, by rw [hdone, finish_done], .delivered u hopen hsink⟩
  · rw [← fileBytes_length hread] at hk hatomic
    exact .inr ⟨_, by rw [hraised, finish_raised], .cutShort u k cause hopen hk hatomic hsink⟩

theorem exec_wrfile_of_filev {s : State} (h : s.eng.filev = true) : exec .wrfile s = (wrfileBody s).finish := by
  change execWrfile s = _
  rw [execWrfile_eq, h, needs_held]

/-- Whatever WRFILE answers, it is one of its ends. -/
theorem exec_wrfile_ends {s t : State} (hw : Memory.wf s) (h : exec .wrfile s = .next t) : WrfileEnd s t := by
  rcases needs_finish (held := s.eng.filev) (i := .wrfile) (rest := wrfileBody) h with ⟨hfilev, rfl⟩ | ⟨-, h⟩
  · exact .lacking hfilev
  · rcases wrfileBody_ends hw with ⟨f, hfault, -⟩ | ⟨t', hnext, hend⟩
    · rw [hfault] at h
      cases h
    · obtain rfl : t' = t := by simpa [hnext] using h
      exact hend

/-- Every way WRSINK can end: the state it leaves, and `STREAM` in it (R180, R181). -/
inductive WrsinkEnd (s : State) : State → Prop where
  /-- No file is held (R193). -/
  | lacking (hfilev : s.eng.filev = false) : WrsinkEnd s (takeError (.sequenceError 0x07#8) s)
  /-- The write is answered `Ok`: `STREAM` has taken the file. -/
  | delivered (u : State) (hopen : u.env.stream.isOpen = s.env.stream.isOpen)
      (hcontent : u.env.stream.content = s.env.stream.content ++ fileBytes s) : WrsinkEnd s (u.respond okCode (.word 0) [])
  /-- The write fails: `STREAM` has taken a first part of the file. -/
  | cutShort (u : State) (k : Nat) (cause : Cause) (hopen : u.env.stream.isOpen = s.env.stream.isOpen)
      (hk : k ≤ (fileBytes s).length) (hatomic : s.config.sinkAtomic = true → k = 0)
      (hcontent : u.env.stream.content = s.env.stream.content ++ (fileBytes s).take k) :
      WrsinkEnd s (takeError (.ioFailure cause) u)

/-- With a held file WRSINK stops only where the space `FILE` is too short to be read, else it has one of the ends above. -/
theorem wrsinkBody_ends (s : State) :
    (∃ f, (wrsinkBody s).finish = .fault f ∧ ¬ FileReadable s) ∨
      ∃ t, (wrsinkBody s).finish = .next t ∧ WrsinkEnd s t := by
  rcases wrsinkBody_cases (s := s) with ⟨f, hstop, hshort⟩ | ⟨hread, u, -, -, hopen, ⟨hdone, hcontent⟩ |
    ⟨k, cause, hraised, hk, hatomic, hcontent⟩⟩
  · exact .inl ⟨f, by rw [hstop, finish_stop], hshort.not_ge⟩
  · exact .inr ⟨_, by rw [hdone, finish_done], .delivered u hopen hcontent⟩
  · rw [← fileBytes_length hread] at hk
    exact .inr ⟨_, by rw [hraised, finish_raised], .cutShort u k cause hopen hk hatomic hcontent⟩

theorem exec_wrsink_of_filev {s : State} (h : s.eng.filev = true) : exec .wrsink s = (wrsinkBody s).finish := by
  change execWrsink s = _
  rw [execWrsink_eq, h, needs_held]

/-- Whatever WRSINK answers, it is one of its ends. -/
theorem exec_wrsink_ends {s t : State} (h : exec .wrsink s = .next t) : WrsinkEnd s t := by
  rcases needs_finish (held := s.eng.filev) (i := .wrsink) (rest := wrsinkBody) h with ⟨hfilev, rfl⟩ | ⟨-, h⟩
  · exact .lacking hfilev
  · rcases wrsinkBody_ends s with ⟨f, hfault, -⟩ | ⟨t', hnext, hend⟩
    · rw [hfault] at h
      cases h
    · obtain rfl : t' = t := by simpa [hnext] using h
      exact hend

/-- Settles O36: a readable file rules out the stop, and each end says what the open answered. -/
theorem wrfileAlwaysReleases : Obligations.WrfileAlwaysReleases := by
  intro s hw hfilev hread
  rcases wrfileBody_ends hw with ⟨f, -, hshort⟩ | ⟨t, hnext, hend⟩
  · exact absurd hread hshort
  · refine ⟨t, (exec_wrfile_of_filev hfilev).trans hnext, ?_⟩
    cases hend with
    | lacking hlack => simp [hfilev] at hlack
    | openFailed u cause hopen hsinks => exact .inr ⟨cause, hopen, by simpa using hsinks, rfl, rfl⟩
    | delivered u hopen hsink => exact .inl ⟨hopen, by simp [hsink]⟩
    | cutShort u k cause hopen hk hatomic hsink => exact .inl ⟨hopen, by simp [hsink]⟩

/-- Settles O38: a readable file rules out the stop, and of the other ends only the first has no held file. -/
theorem wrsinkLeavesStartOfFileOnFailure : Obligations.WrsinkLeavesStartOfFileOnFailure := by
  intro s hfilev hread
  rcases wrsinkBody_ends s with ⟨f, -, hshort⟩ | ⟨t, hnext, hend⟩
  · exact absurd hread hshort
  · refine ⟨t, (exec_wrsink_of_filev hfilev).trans hnext, ?_⟩
    cases hend with
    | lacking hlack => simp [hfilev] at hlack
    | delivered u hopen hcontent => exact ⟨hopen, .inl ⟨rfl, hcontent⟩⟩
    | cutShort u k cause hopen hk hatomic hcontent => exact ⟨hopen, .inr ⟨rfl, k, hk, hatomic, hcontent⟩⟩

/-- Settles O39: of the ends of WRFILE two report an I/O failure, before and after a successful open. -/
theorem wrfileLeavesStartOfFileOnFailure : Obligations.WrfileLeavesStartOfFileOnFailure := by
  intro s t hw h herr
  cases exec_wrfile_ends hw h with
  | lacking hfilev => simp [errorCode] at herr
  | openFailed u cause hopen hsinks => exact .inl ⟨⟨cause, hopen⟩, by simp [hsinks]⟩
  | delivered u hopen hsink => simp at herr
  | cutShort u k cause hopen hk hatomic hsink => exact .inr ⟨k, hopen, hk, by simp [hsink], hatomic⟩

/-! What an output that ends with `OK` has delivered: the held file. -/

theorem responses_of_getbytes_ok {s t : State} (h : exec .getbytes s = .next t) (herr : t.eng.err = 0) :
    t.port.responses = s.port.responses ++ [⟨0, .word 0, fileBytes s⟩] := by
  rcases execGetbytes_cases h with ⟨-, rfl⟩ | ⟨-, -, rfl⟩
  · simp [errorCode] at herr
  · rfl

theorem sink_of_wrfile_ok {s t : State} (hw : Memory.wf s) (h : exec .wrfile s = .next t) (herr : t.eng.err = 0) :
    t.sink (.named s.env.path) = { isOpen := false, content := fileBytes s } := by
  cases exec_wrfile_ends hw h with
  | lacking hfilev => simp [errorCode] at herr
  | openFailed u cause hopen hsinks => simp [errorCode] at herr
  | delivered u hopen hsink => simpa using hsink
  | cutShort u k cause hopen hk hatomic hsink => simp [errorCode] at herr

theorem stream_of_wrsink_ok {s t : State} (h : exec .wrsink s = .next t) (herr : t.eng.err = 0) :
    t.env.stream.content = s.env.stream.content ++ fileBytes s := by
  cases exec_wrsink_ends h with
  | lacking hfilev => simp [errorCode] at herr
  | delivered u hopen hcontent => exact hcontent
  | cutShort u k cause hopen hk hatomic hcontent => simp [errorCode] at herr

/-- Settles O41: the bytes are those of the held file. -/
theorem outputsDeliverSameBytes : Obligations.OutputsDeliverSameBytes := fun s _ _ _ hw hg hgerr hf hferr hs hserr =>
  ⟨fileBytes s, responses_of_getbytes_ok hg hgerr, sink_of_wrfile_ok hw hf hferr, stream_of_wrsink_ok hs hserr⟩

/-! ## The sinks by the choices the host supplied -/

/-- The state with these choices still to come. -/
def withChoices (s : State) (cs : List SinkChoice) : State := { s with env := { s.env with choices := cs } }

@[simp] theorem withChoices_config (s : State) (cs : List SinkChoice) : (withChoices s cs).config = s.config := rfl
@[simp] theorem withChoices_sink (s : State) (cs : List SinkChoice) (ref : SinkRef) :
    (withChoices s cs).sink ref = s.sink ref := by
  cases ref <;> rfl

/-- What the call of a sink that made the choice `c` answers; `k` bytes are the part a failed write took (R32). -/
def answerOf (c : SinkChoice) (k : Nat) : SinkAnswer := if c.accept then .ok else .fail k c.cause

/-- What an open sink that made the choice `c` takes of a write (R32, R181). -/
def bytesTaken (cfg : Config) (c : SinkChoice) (bytes : List Byte) : List Byte :=
  if c.accept then bytes else bytes.take (takenBytes cfg c bytes.length)

/-- What WRFILE reports for the choices at its write and its close: of two failures the write's (R178). -/
def writeReport (b c : SinkChoice) : Byte × Info :=
  if b.accept = false then (2, .cause b.cause) else if c.accept = false then (2, .cause c.cause) else (0, .word 0)

section
variable {s : State} {c : SinkChoice} {cs : List SinkChoice} (h : s.env.choices = c :: cs)
include h

theorem sinkOpen_of_accept (p : Path) (hc : c.accept = true) :
    sinkOpen p s = (.ok, (withChoices s cs).setSink (.named p) { isOpen := true, content := [] }) := by
  simp [sinkOpen, takeChoice_supplied h, hc, withChoices]

theorem sinkOpen_of_refuse (p : Path) (hc : c.accept = false) : sinkOpen p s = (.fail 0 c.cause, withChoices s cs) := by
  simp [sinkOpen, takeChoice_supplied h, hc, withChoices]

theorem sinkWrite_of_open {ref : SinkRef} (hopen : (s.sink ref).isOpen = true) (bytes : List Byte) :
    sinkWrite ref bytes s = (answerOf c (takenBytes s.config c bytes.length),
      (withChoices s cs).setSink ref
        { isOpen := true, content := (s.sink ref).content ++ bytesTaken s.config c bytes }) := by
  have htake : takeChoice s = (c, withChoices s cs) := takeChoice_supplied h
  cases hc : c.accept <;> simp [sinkWrite, htake, hopen, hc, answerOf, bytesTaken]

theorem sinkWrite_of_not_open {ref : SinkRef} (hopen : (s.sink ref).isOpen = false) (bytes : List Byte) :
    sinkWrite ref bytes s = (.fail 0 c.cause, withChoices s cs) := by
  have htake : takeChoice s = (c, withChoices s cs) := takeChoice_supplied h
  simp [sinkWrite, htake, hopen]

theorem sinkClose_of_supplied (ref : SinkRef) :
    sinkClose ref s = (answerOf c 0,
      (withChoices s cs).setSink ref { isOpen := false, content := (s.sink ref).content }) := by
  have htake : takeChoice s = (c, withChoices s cs) := takeChoice_supplied h
  cases hc : c.accept <;> simp [sinkClose, htake, hc, answerOf]

end

/-- The state after calls that have left the choices `cs` and the sink `ref` with the value `v`, and have touched no other
sink. -/
structure SinkLeft (s t : State) (ref : SinkRef) (v : Sink) (cs : List SinkChoice) : Prop where
  wf : Memory.wf t
  frame : CallFrame s t
  choices : t.env.choices = cs
  sink : ∀ ref', t.sink ref' = if ref' = ref then v else s.sink ref'

theorem sinkLeft_of_wf {s : State} (hw : Memory.wf s) (cs : List SinkChoice) (ref : SinkRef) (v : Sink) :
    SinkLeft s ((withChoices s cs).setSink ref v) ref v cs where
  wf := setSink_wf (s := withChoices s cs) ref v hw
  frame := .trans (t := withChoices s cs) ⟨rfl, rfl, rfl, rfl, rfl⟩ (setSink_callFrame (withChoices s cs) ref v)
  choices := setSink_choices (withChoices s cs) ref v
  sink ref' := by rw [sink_setSink (s := withChoices s cs) hw, withChoices_sink]

/-- Of two calls of one sink the second decides what it holds. -/
theorem SinkLeft.trans {s t u : State} {ref : SinkRef} {v w : Sink} {cs cs' : List SinkChoice} (h : SinkLeft s t ref v cs)
    (h' : SinkLeft t u ref w cs') : SinkLeft s u ref w cs' where
  wf := h'.wf
  frame := h.frame.trans h'.frame
  choices := h'.choices
  sink ref' := by
    rw [h'.sink, h.sink]
    split <;> rfl

/-- How WRFILE ends behind its open: the answers of the write and of the close decide the report (R178). -/
theorem finish_of_answers (b c : SinkChoice) (k : Nat) (u : State) :
    (orIoFailure (answerOf b k) u fun s => orIoFailure (answerOf c 0) s fun s => .done s []).finish =
      .next (u.respond (writeReport b c).1 (writeReport b c).2 []) := by
  rw [answerOf, answerOf, writeReport]
  cases b.accept with
  | false => rfl
  | true =>
    cases c.accept with
    | false => rfl
    | true => rfl

/-- The write and the close of WRFILE, by the two choices they use: the sink ends closed, with what the write took
(R178, R179). -/
theorem writeAndClose_of_supplied {s : State} {p : Path} {b c : SinkChoice} {rest : List SinkChoice} (hw : Memory.wf s)
    (hchoices : s.env.choices = b :: c :: rest) (hopen : (s.sink (.named p)).isOpen = true) (bytes : List Byte) :
    ∃ u, (writeAndClose p bytes s).finish = .next (u.respond (writeReport b c).1 (writeReport b c).2 []) ∧
      SinkLeft s u (.named p)
        { isOpen := false, content := (s.sink (.named p)).content ++ bytesTaken s.config b bytes } rest := by
  have hwrite := sinkWrite_of_open hchoices hopen bytes
  have hwritten := sinkLeft_of_wf hw (c :: rest) (.named p)
    { isOpen := true, content := (s.sink (.named p)).content ++ bytesTaken s.config b bytes }
  generalize State.setSink _ _ _ = t at hwrite hwritten
  have hclose := sinkClose_of_supplied hwritten.choices (.named p)
  rw [hwritten.sink, if_pos rfl] at hclose
  refine ⟨_, ?_, hwritten.trans (sinkLeft_of_wf hwritten.wf rest (.named p) _)⟩
  rw [writeAndClose, hwrite]
  dsimp only
  rw [hclose, finish_of_answers]

/-- WRFILE behind an open that is answered `Ok`, by the choices of its write and its close (R178). -/
theorem exec_wrfile_of_accept {s : State} {a b c : SinkChoice} {rest : List SinkChoice} (hw : Memory.wf s)
    (hchoices : s.env.choices = a :: b :: c :: rest) (hfilev : s.eng.filev = true) (hread : FileReadable s)
    (ha : a.accept = true) :
    ∃ u, exec .wrfile s = .next (u.respond (writeReport b c).1 (writeReport b c).2 []) ∧
      SinkLeft s u (.named s.env.path) { isOpen := false, content := bytesTaken s.config b (fileBytes s) } rest := by
  have hopen := sinkOpen_of_accept hchoices s.env.path ha
  have hopened := sinkLeft_of_wf hw (b :: c :: rest) (.named s.env.path) { isOpen := true, content := [] }
  generalize State.setSink _ _ _ = t at hopen hopened
  have hheld : heldFile t = .ok (fileBytes s) := (heldFile_congr hopened.frame.eng).trans (heldFile_of_le hread)
  obtain ⟨u, hfinish, hleft⟩ :=
    writeAndClose_of_supplied (p := s.env.path) hopened.wf hopened.choices (by simp [hopened.sink]) (fileBytes s)
  refine ⟨u, ?_, by simpa [hopened.sink, hopened.frame.config] using hopened.trans hleft⟩
  rw [exec_wrfile_of_filev hfilev, wrfileBody, hopen]
  dsimp only [orIoFailure]
  rw [hheld, ofExcept_ok, hfinish]

/-- Settles O35: the open uses the first choice, the write and the close the next two. -/
theorem wrfileByChoices : Obligations.WrfileByChoices := by
  intro s a b c rest hw hchoices
  refine ⟨fun hfilev => (outputs_of_not_filev hfilev).2.1, fun hfilev _ ha => ?_, fun hfilev hread ha => ?_⟩
  · rw [exec_wrfile_of_filev hfilev, wrfileBody, sinkOpen_of_refuse hchoices _ ha]
    rfl
  · obtain ⟨u, hexec, -, frame, hrest, hsink⟩ := exec_wrfile_of_accept hw hchoices hfilev hread ha
    refine ⟨_, hexec, ?_, fun ref hne => ?_, hrest, frame.matrix, frame.path, frame.config,
      respond_eng_of_callFrame frame _ _ _, ?_, ?_⟩
    · rw [respond_sink, hsink, if_pos rfl, bytesTaken, takenBytes]
    · rw [respond_sink, hsink, if_neg hne]
    · rw [respond_script, frame.port]
    · rw [respond_responses, frame.port, writeReport]

/-- Settles O37: the write uses the first choice, whether `STREAM` is open or not. -/
theorem wrsinkByChoices : Obligations.WrsinkByChoices := by
  intro s b rest hchoices
  refine ⟨fun hfilev => (outputs_of_not_filev hfilev).2.2, fun hfilev hread hopen => ?_, fun hfilev hread hopen => ?_⟩
  · rw [exec_wrsink_of_filev hfilev, wrsinkBody, heldFile_of_le hread, ofExcept_ok,
      sinkWrite_of_not_open (ref := .stream) hchoices hopen]
    rfl
  · rw [exec_wrsink_of_filev hfilev, wrsinkBody, heldFile_of_le hread, ofExcept_ok,
      sinkWrite_of_open (ref := .stream) hchoices hopen]
    rw [answerOf, bytesTaken, takenBytes]
    cases b.accept with
    | true => rfl
    | false => rfl

/-! ## What the host does to its own objects -/

theorem popScript_sink (rest : List HostEvent) (s : State) (ref : SinkRef) : (popScript rest s).sink ref = s.sink ref := by
  cases ref <;> rfl

/-- Settles O7: a step takes the event off the script and does what it says; a sink reads as it was set. -/
theorem hostActionsLeaveEngineAlone : Obligations.HostActionsLeaveEngineAlone := by
  intro s e rest hscript
  refine ⟨?_, ?_, ?_, ?_⟩
  · rintro m rfl
    rw [step, hscript]
    rfl
  · rintro p rfl
    rw [step, hscript]
    rfl
  · rintro cs rfl
    rw [step, hscript]
    rfl
  · rintro ref v rfl hw
    have hsink := (sink_setSink (s := popScript rest s) hw ref · v)
    refine ⟨(popScript rest s).setSink ref v, by rw [step, hscript], setSink_eng _ ref v, setSink_port _ ref v,
      setSink_config _ ref v, setSink_matrix _ ref v, setSink_path _ ref v, setSink_choices _ ref v, ?_, fun ref' hne => ?_⟩
    · rw [hsink, if_pos rfl]
    · rw [hsink, if_neg hne, popScript_sink]

end Sys2Proof.Proofs
end

section
/-! The family of `60_exceptions.md`: no step stops where the invariant holds, when a command ends with `SequenceError`, and the
response codes each command can end with. -/

namespace Sys2Proof.Proofs

open Machine

/-! ## The idle engine -/

/-- Settles O6: with no event a step holds the state. -/
theorem idleEngineHoldsState : Obligations.IdleEngineHoldsState := by
  intro s hscript
  simp only [step, hscript]

/-! ## Every command completes where the invariant holds -/

/-- A held file can be read: under the invariant `FILE` has all its bytes (R33, R62). -/
theorem fileReadable_of_inv {s : State} (hinv : s.Inv) (hfilev : s.eng.filev = true) : FileReadable s :=
  (file_length hinv hfilev).ge

/-- A command that needs no result, or whose result is held, completes: the invariant gives the lengths and bounds that its
primitives require (R62, R208). -/
theorem exec_completes_of_holds {i : Instr} {s : State} (hinv : s.Inv) (hholds : lacksResult i s = false) :
    ∃ t, exec i s = .next t := by
  have hhdr : s.eng.hdr.length = 62 := hinv.mem_wf.1
  cases i with
  | pack =>
    cases hval : validate s.config s.env.matrix with
    | ok d => exact ⟨_, exec_pack_of_validate hval⟩
    | error sub => exact ⟨_, exec_of_validate_error hval (.inl rfl)⟩
  | bldhdr =>
    have hpixv : s.eng.pixv = true := by simpa [lacksResult] using hholds
    exact ⟨_, exec_bldhdr_of_pixv hpixv hhdr (hinv.packed hpixv).pdlen_le⟩
  | asm =>
    obtain ⟨hpixv, hhdrv⟩ : s.eng.pixv = true ∧ s.eng.hdrv = true := by simpa [lacksResult] using hholds
    exact ⟨_, exec_asm_of_held hpixv hhdrv hhdr (hinv.packed hpixv).pix_length⟩
  | encode =>
    cases hval : validate s.config s.env.matrix with
    | ok d => exact ⟨_, exec_encode_of_validate hval hhdr.ge⟩
    | error sub => exact ⟨_, exec_of_validate_error hval (.inr rfl)⟩
  | getbytes =>
    have hfilev : s.eng.filev = true := by simpa [lacksResult] using hholds
    exact ⟨_, (getbytesReturnsFile s).1 hfilev (fileReadable_of_inv hinv hfilev)⟩
  | wrfile =>
    have hfilev : s.eng.filev = true := by simpa [lacksResult] using hholds
    obtain ⟨t, hrun, -⟩ := wrfileAlwaysReleases s hinv.mem_wf hfilev (fileReadable_of_inv hinv hfilev)
    exact ⟨t, hrun⟩
  | wrsink =>
    have hfilev : s.eng.filev = true := by simpa [lacksResult] using hholds
    obtain ⟨t, hrun, -⟩ := wrsinkLeavesStartOfFileOnFailure s hfilev (fileReadable_of_inv hinv hfilev)
    exact ⟨t, hrun⟩
  | discard => exact ⟨_, execDiscard_eq s⟩

/-- Under the invariant every command gives its response (R208). -/
theorem exec_completes (i : Instr) {s : State} (hinv : s.Inv) : ∃ t, exec i s = .next t := by
  cases hlack : lacksResult i s with
  | true => exact ⟨_, exec_of_lacksResult hlack⟩
  | false => exact exec_completes_of_holds hinv hlack

/-- Under the invariant the port answers every code, legal or not (R101, R208). -/
theorem runCode_completes (code : Byte) {s : State} (hinv : s.Inv) : ∃ t, runCode code s = .next t := by
  cases hdec : decodeCode code with
  | some i => rw [runCode_of_decodeCode hdec]; exact exec_completes i hinv
  | none => exact ⟨_, runCode_of_decodeCode_none hdec s⟩

/-- Settles O52: of the host's events only a command could stop, and the invariant rules that out. -/
theorem noStepStops : Obligations.NoStepStops := by
  intro s hinv
  cases hscript : s.port.script with
  | nil => exact ⟨s, idleEngineHoldsState s hscript⟩
  | cons e rest =>
    simp only [StepSafe, step, hscript]
    cases e with
    | command code => exact runCode_completes code (popScript_inv rest hinv)
    | presentMatrix m => exact ⟨_, rfl⟩
    | holdPath p => exact ⟨_, rfl⟩
    | setSink ref v => exact ⟨_, rfl⟩
    | sinkChoices cs => exact ⟨_, rfl⟩
    | reset => exact ⟨_, rfl⟩

/-! ## The response codes of a command -/

/-- Each response code and the command, with what it found, that can end with it (R190 to R193). -/
theorem commandEnd_err {i : Instr} {s t : State} (h : CommandEnd s i t) :
    t.eng.err = 0 ∨ (t.eng.err = 1 ∧ (i = .pack ∨ i = .encode)) ∨ (t.eng.err = 2 ∧ (i = .wrfile ∨ i = .wrsink)) ∨
      (t.eng.err = 4 ∧ lacksResult i s = true) := by
  cases h with
  | lacking i hlack => exact .inr (.inr (.inr ⟨rfl, hlack⟩))
  | invalid i sub hi hval => exact .inr (.inl ⟨rfl, hi⟩)
  | packed d v => exact .inl rfl
  | headed hp => exact .inl rfl
  | assembled hp hh => exact .inl rfl
  | encoded d v => exact .inl rfl
  | returned data => exact .inl rfl
  | written i u hi fr hwf => exact .inl rfl
  | ioFailed i u cause hi fr hwf => exact .inr (.inr (.inl ⟨rfl, hi⟩))
  | discarded => exact .inl rfl

/-- Settles O45: a missing result ends the command at its first line, and no other end has code 4. -/
theorem sequenceErrorExactlyWhenResultLacks : Obligations.SequenceErrorExactlyWhenResultLacks := by
  refine fun i s => ⟨exec_of_lacksResult, fun hholds t hrun herr => ?_⟩
  have hcode := commandEnd_err (exec_ends hrun)
  simp [herr, hholds] at hcode

/-! ## The table of R195 -/

/-- No result is held after reset, so a command lacks one there if it ever does (R39, R193). -/
theorem lacksResult_reset_of_lacksResult {i : Instr} {s : State} (h : lacksResult i s = true) : lacksResult i State.reset = true := by
  cases i with
  | pack => cases h
  | encode => cases h
  | discard => cases h
  | bldhdr => rfl
  | asm => rfl
  | getbytes => rfl
  | wrfile => rfl
  | wrsink => rfl

/-- The table of R195 by response code: `OK` is every command's, 1 that of the commands that validate, 2 that of the commands that
call a sink, and 4 that of the commands that need a result. -/
theorem mayEndWith_iff {i : Instr} {code : Byte} :
    mayEndWith i code ↔ code = 0 ∨ (code = 1 ∧ (i = .pack ∨ i = .encode)) ∨ (code = 2 ∧ (i = .wrfile ∨ i = .wrsink)) ∨
      (code = 4 ∧ lacksResult i State.reset = true) := by
  cases i <;> simp [mayEndWith, lacksResult, State.reset]

/-- A state that holds the file of the empty matrix, as ENCODE makes it after reset, with `STREAM` open and the next three sink calls
all accepted or all refused. -/
def emptyFileHeld (accept : Bool) : State :=
  { State.reset.encoded { w := 0, h := 0, bpr := 0, n := 0 } with
    env :=
      { State.reset.env with
        stream := { isOpen := true, content := [] }
        choices := List.replicate 3 { accept := accept, taken := 0, cause := ⟨0⟩ } } }

/-- With every result held, a matrix that is valid and sinks that accept, every command ends with `OK`. -/
theorem exec_emptyFileHeld_ok (i : Instr) : ∃ t, exec i (emptyFileHeld true) = .next t ∧ t.eng.err = 0 := by
  cases i <;> exact ⟨_, rfl, rfl⟩

/-- With a held file and sinks that refuse, WRFILE and WRSINK end with `IoFailure`. -/
theorem exec_emptyFileHeld_ioFailure {i : Instr} (hi : i = .wrfile ∨ i = .wrsink) :
    ∃ t, exec i (emptyFileHeld false) = .next t ∧ t.eng.err = 2 := by
  rcases hi with rfl | rfl <;> exact ⟨_, rfl, rfl⟩

/-- A state that presents a matrix of width 0 whose one row has a cell. -/
def raggedPresented : State := presentMatrix { width := 0, rows := [[0]] } State.reset

theorem validate_raggedPresented : validate raggedPresented.config raggedPresented.env.matrix = .error .raggedRow := rfl

/-- Settles O46: the ends of a command give no code but those of the table, and each code of the table is met at a state. -/
theorem commandsEndAsTheTableSays : Obligations.CommandsEndAsTheTableSays := by
  intro i code
  rw [mayEndWith_iff]
  constructor
  · rintro ⟨s, t, hrun, rfl⟩
    exact (commandEnd_err (exec_ends hrun)).imp_right (Or.imp_right (Or.imp_right (And.imp_right lacksResult_reset_of_lacksResult)))
  · rintro (rfl | ⟨rfl, hi⟩ | ⟨rfl, hi⟩ | ⟨rfl, hlack⟩)
    · exact ⟨_, exec_emptyFileHeld_ok i⟩
    · exact ⟨_, _, exec_of_validate_error validate_raggedPresented hi, rfl⟩
    · exact ⟨_, exec_emptyFileHeld_ioFailure hi⟩
    · exact ⟨_, _, exec_of_lacksResult hlack, rfl⟩

end Sys2Proof.Proofs
end

section
/-! The family of `70_reset_and_hazards.md`: what the reset event clears, and what it leaves as it was. -/

namespace Sys2Proof.Proofs

open Machine

section
variable (s : State)

@[simp] theorem hostReset_pixv : (hostReset s).eng.pixv = false := rfl
@[simp] theorem hostReset_hdrv : (hostReset s).eng.hdrv = false := rfl
@[simp] theorem hostReset_filev : (hostReset s).eng.filev = false := rfl
@[simp] theorem hostReset_err : (hostReset s).eng.err = 0 := rfl
@[simp] theorem hostReset_errinfo : (hostReset s).eng.errinfo = .word 0 := rfl

/-- Whatever values the unspecified registers and buffers take, the matrix source and the sinks are no part of them (R222). -/
@[simp] theorem hostReset_env : (hostReset s).env = s.env := rfl

/-- The host's script and the record of responses are kept, so no response is given (R220; log 8). -/
@[simp] theorem hostReset_port : (hostReset s).port = s.port := rfl

@[simp] theorem hostReset_config : (hostReset s).config = s.config := rfl

end

/-- A reset event that is next on the script happens at the state without it (R220). -/
theorem step_reset {s : State} {rest : List HostEvent} (h : s.port.script = .reset :: rest) :
    step s = .next (hostReset (popScript rest s)) := by
  simp only [step, h]

/-- Settles O43: the step takes the event off the script, which changes the port only, and then resets, which clears flags and
report and keeps the environment, the port and the parameters. -/
theorem resetEventTouchesNoSink : Obligations.ResetEventTouchesNoSink := fun s rest hscript =>
  ⟨hostReset (popScript rest s), step_reset hscript, hostReset_env _, hostReset_pixv _, hostReset_hdrv _, hostReset_filev _,
    hostReset_err _, hostReset_errinfo _, hostReset_port _, hostReset_config _⟩

end Sys2Proof.Proofs
end
